-- ==== Sys2Proof/Word.lean ====
section
/-! DEFINITION. The word types of the block: the widths the spec gives its registers and fields
(spec/00_scope.md R7, R10; spec/30_encoding.md R101). Every value is unsigned (R10). -/

namespace Sys2Proof

/-- A byte: a V register, a timer, a memory cell, an 8-bit immediate (R7). -/
abbrev Byte := BitVec 8

/-- A 16-bit word: an opcode, I, PC, a stack entry (R7, R33, R34). -/
abbrev Word := BitVec 16

/-- A nibble: a register number, a key code, the count n of DXYN (R101). -/
abbrev Nibble := BitVec 4

/-- A 12-bit address field nnn (R101). -/
abbrev Addr := BitVec 12

/-- `bool2bit` of R10, as a byte. -/
def bool2bit (c : Bool) : Byte := if c then 1#8 else 0#8

end Sys2Proof
end

