-- ==== Sys2Proof/Config.lean ====
section
/-! DEFINITION. The configuration parameters of spec/00_scope.md R8, fixed when the machine is built
(spec/10_state.md R40), and the free values of this model (opaque, with no body). -/

namespace Sys2Proof

/-- R215: which register 8XY6 and 8XYE shift. -/
inductive ShiftOperand where
  | vx
  | vy
deriving DecidableEq, Repr, Inhabited

/-- R293: what FX55 and FX65 do to I after the transfer. -/
inductive IndexIncrement where
  | unchanged
  | plusXPlus1
deriving DecidableEq, Repr

/-- R181: what 0NNN does. -/
inductive MachineCall where
  | call
  | nop
deriving DecidableEq, Repr

/-- R151: which of result and flag stays in VF when the destination is VF. -/
inductive FlagOrder where
  | flagLast
  | resultLast
deriving DecidableEq, Repr

/-- The configuration record of R8.
State carries it unchanged, so that every statement holds for every configuration
(notes/assumptions/1.md). -/
structure Config where
  shiftOperand   : ShiftOperand
  indexIncrement : IndexIncrement
  machineCall    : MachineCall
  flagOrder      : FlagOrder
  /-- A 12-bit address with fontBase + 80 at most 0x200 (`Config.wf`). -/
  fontBase       : Addr
  /-- The 80 glyph bytes. -/
  fontData       : Vector Byte 80
deriving DecidableEq, Repr

/-- The one constraint R8 puts on a configuration: the font table lies inside 0x000..0x1FF. -/
def Config.wf (c : Config) : Bool := decide (c.fontBase.toNat + 80 ≤ 0x200)

/-- FREE VALUE. The draw of the k-th CXNN (spec/00_scope.md R9, D16): any byte, with no generator
(notes/assumptions/5.md). -/
opaque Config.freeDraw : Nat → Byte

/-- FREE VALUE. The `shiftOperand` of the machine `State.reset` builds: R215 leaves the parameter OPEN,
with no default (notes/assumptions/2.md). -/
opaque Config.openShiftOperand : ShiftOperand

end Sys2Proof
end

