-- ==== Sys2Proof/Syntax.lean ====
section
/-! DEFINITION. The 35 instructions of spec/opcode_table.json (spec/30_encoding.md R114), one constructor
per row. Operands are the decoded fields of R101: `x`, `y` register numbers, `n` a count, `nn` an 8-bit
immediate, `nnn` a 12-bit address. -/

namespace Sys2Proof

inductive Instr where
  /-- 00E0 -/
  | cls
  /-- 00EE -/
  | ret
  /-- 0NNN, but for 00E0 and 00EE -/
  | sys (nnn : Addr)
  /-- 1NNN -/
  | jp (nnn : Addr)
  /-- 2NNN -/
  | call (nnn : Addr)
  /-- 3XNN -/
  | seImm (x : Nibble) (nn : Byte)
  /-- 4XNN -/
  | sneImm (x : Nibble) (nn : Byte)
  /-- 5XY0 -/
  | seReg (x y : Nibble)
  /-- 6XNN -/
  | ldImm (x : Nibble) (nn : Byte)
  /-- 7XNN -/
  | addImm (x : Nibble) (nn : Byte)
  /-- 8XY0 -/
  | ldReg (x y : Nibble)
  /-- 8XY1 -/
  | or (x y : Nibble)
  /-- 8XY2 -/
  | and (x y : Nibble)
  /-- 8XY3 -/
  | xor (x y : Nibble)
  /-- 8XY4 -/
  | addReg (x y : Nibble)
  /-- 8XY5 -/
  | sub (x y : Nibble)
  /-- 8XY6 -/
  | shr (x y : Nibble)
  /-- 8XY7 -/
  | subn (x y : Nibble)
  /-- 8XYE -/
  | shl (x y : Nibble)
  /-- 9XY0 -/
  | sneReg (x y : Nibble)
  /-- ANNN -/
  | ldI (nnn : Addr)
  /-- BNNN -/
  | jpV0 (nnn : Addr)
  /-- CXNN -/
  | rnd (x : Nibble) (nn : Byte)
  /-- DXYN -/
  | drw (x y n : Nibble)
  /-- EX9E -/
  | skp (x : Nibble)
  /-- EXA1 -/
  | sknp (x : Nibble)
  /-- FX07 -/
  | ldVxDt (x : Nibble)
  /-- FX0A -/
  | ldVxK (x : Nibble)
  /-- FX15 -/
  | ldDtVx (x : Nibble)
  /-- FX18 -/
  | ldStVx (x : Nibble)
  /-- FX1E -/
  | addIVx (x : Nibble)
  /-- FX29 -/
  | ldFVx (x : Nibble)
  /-- FX33 -/
  | ldBVx (x : Nibble)
  /-- FX55 -/
  | ldMemVx (x : Nibble)
  /-- FX65 -/
  | ldVxMem (x : Nibble)
deriving DecidableEq, Repr

end Sys2Proof
end

