-- ==== Sys2Proof/Decode.lean ====
section
/-! DEFINITION. The opcode decoder (spec/30_encoding.md) and, after it, the encoder written from the same
opcode map. The decoder is a pure, total function of the opcode (R114, R146). -/

namespace Sys2Proof

/-- Why the decoder gives no instruction, or a decoder function no value. -/
inductive DecodeError where
  /-- R112: an illegal encoding. The step turns it into `Halted` with kind UnknownOpcode (R311). -/
  | unknownOpcode (op : Word)
  /-- Fewer than two bytes were given. The engine never does that: it always fetches two (R144). -/
  | truncated
  /-- R102, R316: `nibble` with an index outside 0..3. Unreachable from the engine. -/
  | invalidIndex
  /-- R103, R316: `lowBits` with a count outside 0..4. Unreachable from the engine. -/
  | invalidCount
deriving DecidableEq, Repr

/-- R102. -/
def nibble (op : Word) (index : Nat) : Except DecodeError Nat :=
  if index ≤ 3 then .ok ((op.toNat >>> (4 * index)) &&& 0xF) else .error .invalidIndex

/-- R103. -/
def lowBits (op : Word) (nibbleCount : Nat) : Except DecodeError Nat :=
  if nibbleCount ≤ 4 then .ok (op.toNat % 2 ^ (4 * nibbleCount)) else .error .invalidCount

/-- The field n3 of R101: op[15:12], the primary dispatch key. -/
def opN3 (op : Word) : Nibble := op.extractLsb' 12 4
/-- The field x of R101: op[11:8]. -/
def opX (op : Word) : Nibble := op.extractLsb' 8 4
/-- The field y of R101: op[7:4]. -/
def opY (op : Word) : Nibble := op.extractLsb' 4 4
/-- The field n of R101: op[3:0]. -/
def opN (op : Word) : Nibble := op.extractLsb' 0 4
/-- The field nn of R101: op[7:0]. -/
def opNN (op : Word) : Byte := op.extractLsb' 0 8
/-- The field nnn of R101: op[11:0]. -/
def opNNN (op : Word) : Addr := op.extractLsb' 0 12

/-- Group 0 (R107): the exact words first. -/
def decodeGroup0 (op : Word) : Instr :=
  if op = 0x00E0#16 then .cls
  else if op = 0x00EE#16 then .ret
  else .sys (opNNN op)

/-- Group 8 (R109), sub-selected by n. -/
def decodeGroup8 (x y n : Nibble) : Option Instr :=
  match n with
  | 0x0#4 => some (.ldReg x y)
  | 0x1#4 => some (.or x y)
  | 0x2#4 => some (.and x y)
  | 0x3#4 => some (.xor x y)
  | 0x4#4 => some (.addReg x y)
  | 0x5#4 => some (.sub x y)
  | 0x6#4 => some (.shr x y)
  | 0x7#4 => some (.subn x y)
  | 0xE#4 => some (.shl x y)
  | _ => none

/-- Group E (R110), sub-selected by nn. -/
def decodeGroupE (x : Nibble) (nn : Byte) : Option Instr :=
  match nn with
  | 0x9E#8 => some (.skp x)
  | 0xA1#8 => some (.sknp x)
  | _ => none

/-- Group F (R111), sub-selected by nn. -/
def decodeGroupF (x : Nibble) (nn : Byte) : Option Instr :=
  match nn with
  | 0x07#8 => some (.ldVxDt x)
  | 0x0A#8 => some (.ldVxK x)
  | 0x15#8 => some (.ldDtVx x)
  | 0x18#8 => some (.ldStVx x)
  | 0x1E#8 => some (.addIVx x)
  | 0x29#8 => some (.ldFVx x)
  | 0x33#8 => some (.ldBVx x)
  | 0x55#8 => some (.ldMemVx x)
  | 0x65#8 => some (.ldVxMem x)
  | _ => none

/-- R106, R114: dispatch on n3, then on the sub-tag; `none` is the tag Unknown. -/
def decodeTag (op : Word) : Option Instr :=
  match opN3 op with
  | 0x0#4 => some (decodeGroup0 op)
  | 0x1#4 => some (.jp (opNNN op))
  | 0x2#4 => some (.call (opNNN op))
  | 0x3#4 => some (.seImm (opX op) (opNN op))
  | 0x4#4 => some (.sneImm (opX op) (opNN op))
  | 0x5#4 => if opN op = 0x0#4 then some (.seReg (opX op) (opY op)) else none
  | 0x6#4 => some (.ldImm (opX op) (opNN op))
  | 0x7#4 => some (.addImm (opX op) (opNN op))
  | 0x8#4 => decodeGroup8 (opX op) (opY op) (opN op)
  | 0x9#4 => if opN op = 0x0#4 then some (.sneReg (opX op) (opY op)) else none
  | 0xA#4 => some (.ldI (opNNN op))
  | 0xB#4 => some (.jpV0 (opNNN op))
  | 0xC#4 => some (.rnd (opX op) (opNN op))
  | 0xD#4 => some (.drw (opX op) (opY op) (opN op))
  | 0xE#4 => decodeGroupE (opX op) (opNN op)
  | 0xF#4 => decodeGroupF (opX op) (opNN op)
  | _ => none

/-- The decoder: one instruction with its fields, or a rejection by name (R114). -/
def decode (op : Word) : Except DecodeError Instr :=
  match decodeTag op with
  | some i => .ok i
  | none => .error (.unknownOpcode op)

/-- R65, R144: the opcode two bytes form, the first the more significant. -/
def opcodeOfBytes (hi lo : Byte) : Word := hi ++ lo

/-- The two bytes an opcode occupies in memory, lowest address first (R65). -/
def bytesOfOpcode (op : Word) : List Byte := [op.extractLsb' 8 8, op.extractLsb' 0 8]

/-- The decoder over bytes: the instruction and the bytes after it. -/
def decodeBytes : List Byte → Except DecodeError (Instr × List Byte)
  | hi :: lo :: rest =>
    match decode (opcodeOfBytes hi lo) with
    | .ok i => .ok (i, rest)
    | .error e => .error e
  | [_] | [] => .error .truncated

/-- The opcode the table's bit numbers give: bit 0 is the least significant bit of the word, bits at
`nbits` and above are 0. -/
def opcodeOfTableWord (nbits w : Nat) : Word := BitVec.ofNat 16 (w % 2 ^ nbits)

/-- What the decoder reads from a word numbered as spec/opcode_table.json numbers its bits. -/
def decodeTableWord (nbits w : Nat) : Option Instr :=
  match decodeBytes (bytesOfOpcode (opcodeOfTableWord nbits w)) with
  | .ok (i, _) => some i
  | .error _ => none

/-! The encoder (R105: the formats ADDR, REG_IMM, REG_REG and DRAW, REG_SUB). -/

/-- Format ADDR: `c NNN`. -/
def encodeAddr (c : Nibble) (nnn : Addr) : Word := c ++ nnn

/-- Formats REG_IMM and REG_SUB: `c X NN` and `c X kk`. -/
def encodeRegImm (c x : Nibble) (nn : Byte) : Word := c ++ x ++ nn

/-- Formats REG_REG and DRAW: `c X Y k` and `D X Y N`. -/
def encodeRegReg (c x y k : Nibble) : Word := c ++ x ++ y ++ k

/-- The word of an instruction, for a well-formed one the only word that decodes to it. -/
def encode : Instr → Word
  | .cls => 0x00E0#16
  | .ret => 0x00EE#16
  | .sys nnn => encodeAddr 0x0#4 nnn
  | .jp nnn => encodeAddr 0x1#4 nnn
  | .call nnn => encodeAddr 0x2#4 nnn
  | .seImm x nn => encodeRegImm 0x3#4 x nn
  | .sneImm x nn => encodeRegImm 0x4#4 x nn
  | .seReg x y => encodeRegReg 0x5#4 x y 0x0#4
  | .ldImm x nn => encodeRegImm 0x6#4 x nn
  | .addImm x nn => encodeRegImm 0x7#4 x nn
  | .ldReg x y => encodeRegReg 0x8#4 x y 0x0#4
  | .or x y => encodeRegReg 0x8#4 x y 0x1#4
  | .and x y => encodeRegReg 0x8#4 x y 0x2#4
  | .xor x y => encodeRegReg 0x8#4 x y 0x3#4
  | .addReg x y => encodeRegReg 0x8#4 x y 0x4#4
  | .sub x y => encodeRegReg 0x8#4 x y 0x5#4
  | .shr x y => encodeRegReg 0x8#4 x y 0x6#4
  | .subn x y => encodeRegReg 0x8#4 x y 0x7#4
  | .shl x y => encodeRegReg 0x8#4 x y 0xE#4
  | .sneReg x y => encodeRegReg 0x9#4 x y 0x0#4
  | .ldI nnn => encodeAddr 0xA#4 nnn
  | .jpV0 nnn => encodeAddr 0xB#4 nnn
  | .rnd x nn => encodeRegImm 0xC#4 x nn
  | .drw x y n => encodeRegReg 0xD#4 x y n
  | .skp x => encodeRegImm 0xE#4 x 0x9E#8
  | .sknp x => encodeRegImm 0xE#4 x 0xA1#8
  | .ldVxDt x => encodeRegImm 0xF#4 x 0x07#8
  | .ldVxK x => encodeRegImm 0xF#4 x 0x0A#8
  | .ldDtVx x => encodeRegImm 0xF#4 x 0x15#8
  | .ldStVx x => encodeRegImm 0xF#4 x 0x18#8
  | .addIVx x => encodeRegImm 0xF#4 x 0x1E#8
  | .ldFVx x => encodeRegImm 0xF#4 x 0x29#8
  | .ldBVx x => encodeRegImm 0xF#4 x 0x33#8
  | .ldMemVx x => encodeRegImm 0xF#4 x 0x55#8
  | .ldVxMem x => encodeRegImm 0xF#4 x 0x65#8

end Sys2Proof
end

