-- ==== Sys2Proof/Machine/Defaults.lean ====
section
/-! DEFINITION. The default configuration of spec/00_scope.md R8 and what memory holds right after reset
(spec/10_state.md R45, spec/60_exceptions.md R329). -/

namespace Sys2Proof.Machine

/-- The size of the address space (R7, R60). -/
def memorySize : Nat := 4096

/-- Where programs are loaded and the first fetch happens (R7, R61). -/
def programBase : Nat := 0x200

/-- The longest ROM (R7): 4096 − 512 bytes. -/
def maxRomLength : Nat := 3584

/-- Glyphs 0 to 7 of R66, five bytes each. PRESUMED: the spec marks the bytes as general knowledge
(notes/assumptions/4.md). -/
def glyphsLow : List Byte :=
  [0xF0, 0x90, 0x90, 0x90, 0xF0] ++ [0x20, 0x60, 0x20, 0x20, 0x70] ++
  [0xF0, 0x10, 0xF0, 0x80, 0xF0] ++ [0xF0, 0x10, 0xF0, 0x10, 0xF0] ++
  [0x90, 0x90, 0xF0, 0x10, 0x10] ++ [0xF0, 0x80, 0xF0, 0x10, 0xF0] ++
  [0xF0, 0x80, 0xF0, 0x90, 0xF0] ++ [0xF0, 0x10, 0x20, 0x40, 0x40]

/-- Glyphs 8 to F of R66. PRESUMED, as `glyphsLow`. -/
def glyphsHigh : List Byte :=
  [0xF0, 0x90, 0xF0, 0x90, 0xF0] ++ [0xF0, 0x90, 0xF0, 0x10, 0xF0] ++
  [0xF0, 0x90, 0xF0, 0x90, 0x90] ++ [0xE0, 0x90, 0xE0, 0x90, 0xE0] ++
  [0xF0, 0x80, 0x80, 0x80, 0xF0] ++ [0xE0, 0x90, 0x90, 0x90, 0xE0] ++
  [0xF0, 0x80, 0xF0, 0x80, 0xF0] ++ [0xF0, 0x80, 0xF0, 0x80, 0x80]

/-- The conventional font of R66, the default of `fontData`. -/
def conventionalFont : Vector Byte 80 := ⟨(glyphsLow ++ glyphsHigh).toArray, rfl⟩

/-- The defaults of R8; `shiftOperand` has none and is a free value (notes/assumptions/2.md, 3.md). -/
def defaultConfig : Config :=
  { shiftOperand   := Config.openShiftOperand
    indexIncrement := .unchanged
    machineCall    := .call
    flagOrder      := .flagLast
    fontBase       := 0x050#12
    fontData       := conventionalFont }

/-- R45: the byte at address `a` right after reset: the font at fontBase..fontBase+79, 0 elsewhere.
It is what an address that `State.mem` does not list reads as. -/
def resetByte (c : Config) (a : Nat) : Byte :=
  if c.fontBase.toNat ≤ a then c.fontData[a - c.fontBase.toNat]?.getD 0#8 else 0#8

end Sys2Proof.Machine
end

