-- ==== Sys2Proof/Machine/State.lean ====
section
/-! DEFINITION. The state of the machine (spec/10_state.md), as plain data, and its reset value (R45). -/

namespace Sys2Proof.Machine

/-- The kinds of fatal error an error record can name (R39, R310). -/
inductive ErrorKind where
  | unknownOpcode
  | stackOverflow
  | stackUnderflow
  | outOfBounds
deriving DecidableEq, Repr

/-- The error record of R39. -/
structure ErrorRecord where
  kind   : ErrorKind
  /-- `none` when the fetch itself failed. -/
  opcode : Option Word
  /-- The fetch address of the instruction. -/
  pc     : Word
deriving DecidableEq, Repr

/-- The reasons of the model-only state `Faulted` (R317). -/
inductive FaultReason where
  /-- EX9E or EXA1 with V[x] above 0xF (R276). -/
  | keyIndexRange
deriving DecidableEq, Repr

/-- The engine state of R38. -/
inductive Mode where
  | running
  /-- Blocked in FX0A; `x` is the register that will receive the key code. -/
  | awaitingKey (x : Nibble)
  | halted (err : ErrorRecord)
  | faulted (reason : FaultReason)
deriving DecidableEq, Repr

/-- The framebuffer of R37: 32 rows, row 0 the top; bit x of a row is the pixel of column x
(notes/assumptions/14.md). -/
abbrev Framebuffer := Vector (BitVec 64) 32

/-- The bytes of memory that differ from their reset contents, addresses rising
(notes/assumptions/11.md). -/
abbrev Memory := List Host.Cell

/-- Everything the spec gives the machine (10_state.md R30 to R39, 20_memory.md R60, 60_exceptions.md
R331), the configuration it was built with, and the model's own draw counter. -/
structure State where
  /-- V0..VF (R30). -/
  v            : Vector Byte 16
  /-- I (R32). -/
  i            : Word
  /-- PC (R33). -/
  pc           : Word
  /-- The live entries of the call stack, top first; SP is the length (R34). -/
  stack        : List Word
  /-- DT (R35). -/
  dt           : Byte
  /-- ST (R35). -/
  st           : Byte
  /-- Key[0x0..0xF], true when pressed (R36). -/
  key          : Vector Bool 16
  /-- FB (R37). -/
  fb           : Framebuffer
  /-- The 4096-byte memory (R60). -/
  mem          : Memory
  /-- The engine state (R38) with the error record (R39). -/
  mode         : Mode
  /-- The output of R331. -/
  drewLastStep : Bool
  /-- The configuration of R8; nothing writes it (R40). -/
  cfg          : Config
  /-- How many draws CXNN has taken (R9): the model's own field. -/
  draws        : Nat
deriving DecidableEq, Repr

/-- Why the machine stops with a fault.
Nobody raises one: every error the spec names leaves a state the spec describes (`Mode.halted`,
`Mode.faulted`), so it is a next state and this type has no constructor (notes/assumptions/6.md). -/
inductive Fault where
deriving DecidableEq, Repr

/-- Why an instruction has no meaning. -/
inductive Refusal where
  /-- An instruction that `exec` rejects by name (safe). No arm of `exec` does. -/
  | notModelled (mnemonic : String)
deriving DecidableEq, Repr

/-- The machine right after construction with configuration `c` (R45, R360): memory lists nothing, which
reads as the zeros and the font of `resetByte`. -/
def State.construct (c : Config) : State :=
  { v            := Vector.replicate 16 0#8
    i            := 0#16
    pc           := 0x200#16
    stack        := []
    dt           := 0#8
    st           := 0#8
    key          := Vector.replicate 16 false
    fb           := Vector.replicate 32 0#64
    mem          := []
    mode         := .running
    drewLastStep := false
    cfg          := c
    draws        := 0 }

/-- The machine right after reset, built with the default configuration. -/
def State.reset : State := State.construct defaultConfig

end Sys2Proof.Machine
end

