-- ==== Sys2Proof/Machine/Ops.lean ====
section
/-! DEFINITION. The named operations over registers, the program counter, the call stack and memory, and
the one operation that takes a fatal error (spec/10_state.md, 20_memory.md, 40_engine.md, 60_exceptions.md).
Every operand read is a function of the state before the instruction (R148). -/

namespace Sys2Proof.Machine

/-- How a meaning ends. -/
abbrev Result := Host.Outcome State Fault Refusal

/-! Registers (R30). -/

/-- `V[x]`. -/
def State.getV (s : State) (x : Nibble) : Byte := s.v[x.toNat]

/-- `V[x] <- b`. -/
def State.setV (s : State) (x : Nibble) (b : Byte) : State := { s with v := s.v.set x.toNat b }

/-- `I <- w` (R32). -/
def State.setI (s : State) (w : Word) : State := { s with i := w }

/-- The number of VF (R31). -/
def vf : Nibble := 0xF#4

/-! Program counter. A meaning runs at PC = pcFetch; `pcNext` is R145's. -/

/-- `pcNext` of R145. -/
def State.pcNext (s : State) : Word := s.pc + 2#16

/-- The advance of R145: PC is left at pcNext. -/
def State.advance (s : State) : State := { s with pc := s.pcNext }

/-- `PC <- target`. -/
def State.jump (s : State) (target : Word) : State := { s with pc := target }

/-- R153: a taken skip leaves PC at pcNext + 2, one not taken at pcNext. -/
def State.skipIf (s : State) (c : Bool) : State :=
  { s with pc := if c then s.pcNext + 2#16 else s.pcNext }

/-! Call stack (R34). -/

/-- SP of R34. -/
def State.sp (s : State) : Nat := s.stack.length

/-- S[k] of R34, for k below SP. -/
def State.stackEntry (s : State) (k : Nat) : Option Word := s.stack.reverse[k]?

/-- The capacity of the call stack (R34). -/
def stackCapacity : Nat := 16

/-- `push` of R34; `none` when the stack is full. -/
def State.push (s : State) (a : Word) : Option State :=
  if s.stack.length < stackCapacity then some { s with stack := a :: s.stack } else none

/-- `pop` of R34, the popped entry first; `none` when the stack is empty. -/
def State.pop (s : State) : Option (Word × State) :=
  match s.stack with
  | [] => none
  | a :: rest => some (a, { s with stack := rest })

/-! Errors. -/

/-- Taking a fatal error (R150, R318): nothing of the instruction commits, PC stays pcFetch, and the mode
becomes Halted with the record of R39. There is no handler and no return from it (R319): only the reset
transaction leaves Halted (Machine/Transactions.lean). -/
def raise (kind : ErrorKind) (op : Option Word) (s : State) : Result :=
  .next { s with mode := .halted { kind := kind, opcode := op, pc := s.pc } }

/-- The model-only fault of R317: nothing commits and the mode becomes Faulted. -/
def unmodelled (reason : FaultReason) (s : State) : Result :=
  .next { s with mode := .faulted reason }

/-! Memory as a canonical list over what unlisted addresses read as (notes/assumptions/11.md). -/

/-- The byte at address `a`, where `blank` is what unlisted addresses read as. -/
def Memory.read (blank : Nat → Byte) : Memory → Nat → Byte
  | [], a => blank a
  | c :: m, a => if c.1 = a then c.2 else Memory.read blank m a

/-- Writing byte `b` at address `a`; a byte equal to its blank value is not listed. -/
def Memory.write (blank : Nat → Byte) : Memory → Nat → Byte → Memory
  | [], a, b => if b = blank a then [] else [(a, b)]
  | c :: m, a, b =>
    if a < c.1 then (if b = blank a then c :: m else (a, b) :: c :: m)
    else if a = c.1 then (if b = blank a then m else (a, b) :: m)
    else c :: Memory.write blank m a b

/-- The canonical form: addresses strictly rising and below 4096, no entry equal to its blank value. -/
def Memory.wf (blank : Nat → Byte) (m : Memory) : Bool :=
  decide (m.Pairwise fun c d => c.1 < d.1) &&
    m.all fun c => decide (c.1 < memorySize) && c.2 != blank c.1

/-- The memory of a state has the canonical form. -/
def State.memoryWf (s : State) : Bool := Memory.wf (resetByte s.cfg) s.mem

/-- `MemRead(a, 1)` (R11, R69). -/
def State.readByte (s : State) (a : Nat) : Byte := Memory.read (resetByte s.cfg) s.mem a

/-- `MemWrite(a, 1, b)` (R11). -/
def State.writeByte (s : State) (a : Nat) (b : Byte) : State :=
  { s with mem := Memory.write (resetByte s.cfg) s.mem a b }

/-- The addresses base, base + 1, …, base + count − 1, exact and never wrapped (R63, R64). -/
def addresses (base : Word) (count : Nat) : List Nat := (List.range count).map (base.toNat + ·)

/-- Bytes read at ascending addresses from `base` (R63). -/
def State.readBytes (s : State) (base : Word) (count : Nat) : List Byte :=
  (addresses base count).map s.readByte

/-- Bytes written at ascending addresses from `a` (R63, R65). -/
def State.writeBytes (s : State) (a : Nat) : List Byte → State
  | [] => s
  | b :: bs => (s.writeByte a b).writeBytes (a + 1) bs

/-- `inBounds` of R64. -/
def inBounds (a : Nat) : Bool := decide (a ≤ 0xFFF)

/-- `checkRange` of R64 passes: every one of the `count` addresses is in bounds. -/
def rangeOk (base : Word) (count : Nat) : Bool := (addresses base count).all inBounds

/-! Fetch (R143, R144). -/

/-- The largest legal fetch address (R143). -/
def maxFetch : Nat := 0xFFE

/-- The opcode at PC, big-endian (R144). -/
def State.fetchOpcode (s : State) : Word :=
  opcodeOfBytes (s.readByte s.pc.toNat) (s.readByte (s.pc.toNat + 1))

end Sys2Proof.Machine
end

