-- ==== Sys2Proof/Machine/Operands.lean ====
section
/-! DEFINITION. The operand forms that are more than a field: the shift source, the key index, the glyph
address, the jump offset, the BCD digits, the index advance. -/

namespace Sys2Proof.Machine

/-- `zext_16` of a byte (R10). -/
def zextByte (b : Byte) : Word := b.setWidth 16

/-- `zext_16` of a 12-bit address (R10). -/
def zextAddr (a : Addr) : Word := a.setWidth 16

/-- `shiftSrc(x, y)` of R215. -/
def State.shiftSrc (s : State) (x y : Nibble) : Byte :=
  match s.cfg.shiftOperand with
  | .vx => s.getV x
  | .vy => s.getV y

/-- `keyIndex` of R276; `none` for a value above 0xF. -/
def keyIndex (b : Byte) : Option Nibble := if b.toNat ≤ 0xF then some (b.setWidth 4) else none

/-- `Key[k]` (R36), the snapshot at the start of the step (R149). -/
def State.keyPressed (s : State) (k : Nibble) : Bool := s.key[k.toNat]

/-- The address of the glyph of digit `b` (R254), not masked to a digit. -/
def glyphAddress (c : Config) (b : Byte) : Word := zextAddr c.fontBase + zextByte b * 5#16

/-- The target of BNNN (R188): an exact sum, at most 0x10FE. -/
def State.offsetTarget (s : State) (nnn : Addr) : Word := zextAddr nnn + zextByte (s.getV 0#4)

/-- The three digits of R290, hundreds first. -/
def bcdDigits (b : Byte) : List Byte := [b / 100#8, b / 10#8 % 10#8, b % 10#8]

/-- How many registers V0..V[x] are (R291, R292). -/
def transferCount (x : Nibble) : Nat := x.toNat + 1

/-- V0..V[x] in register order (R291). -/
def State.lowRegs (s : State) (x : Nibble) : List Byte := s.v.toList.take (transferCount x)

/-- V0..V[x] replaced by the bytes at I..I+x, all read before any is written (R292). -/
def State.loadLowRegs (s : State) (x : Nibble) : State :=
  { s with v := Vector.ofFn fun k =>
      if k.val ≤ x.toNat then s.readByte (s.i.toNat + k.val) else s.v[k.val] }

/-- `incrementIndex(x)` of R293. -/
def State.incrementIndex (s : State) (x : Nibble) : State :=
  match s.cfg.indexIncrement with
  | .unchanged => s
  | .plusXPlus1 => s.setI (s.i + x.setWidth 16 + 1#16)

end Sys2Proof.Machine
end

