-- ==== Sys2Proof/Machine/Flags.lean ====
section
/-! DEFINITION. The ALU primitives with their flag outputs (spec/42_register_alu.md R210 to R214) and the
order in which result and flag are written (spec/40_engine.md R151). Each primitive is computed exactly on
natural numbers and narrowed once. -/

namespace Sys2Proof.Machine

/-- `add8` of R210: the flag is the carry. -/
def add8 (a b : Byte) : Byte × Byte :=
  (BitVec.ofNat 8 (a.toNat + b.toNat), bool2bit (decide (a.toNat + b.toNat > 255)))

/-- `sub8` of R211: the flag is no-borrow. -/
def sub8 (a b : Byte) : Byte × Byte :=
  (BitVec.ofInt 8 ((a.toNat : Int) - b.toNat), bool2bit (decide (a.toNat ≥ b.toNat)))

/-- `rsub8` of R212: `a` is the destination, `b` the amount. -/
def rsub8 (a b : Byte) : Byte × Byte :=
  (BitVec.ofInt 8 ((b.toNat : Int) - a.toNat), bool2bit (decide (b.toNat ≥ a.toNat)))

/-- `shr8` of R213: the flag is the bit shifted out. -/
def shr8 (b : Byte) : Byte × Byte := (b >>> 1, bool2bit (b.getLsbD 0))

/-- `shl8` of R214: the flag is the bit shifted out. -/
def shl8 (b : Byte) : Byte × Byte := (b <<< 1, bool2bit (b.getLsbD 7))

/-- `writeResultAndFlag` of R151. -/
def State.writeResultAndFlag (s : State) (x : Nibble) (rf : Byte × Byte) : State :=
  match s.cfg.flagOrder with
  | .flagLast => (s.setV x rf.1).setV vf rf.2
  | .resultLast => (s.setV vf rf.2).setV x rf.1

end Sys2Proof.Machine
end

