-- ==== Sys2Proof/Machine/ControlFlow.lean ====
section
/-! DEFINITION. The meanings of the control-flow instructions (spec/41_control_flow.md R180 to R189).
A meaning runs at PC = pcFetch. -/

namespace Sys2Proof.Machine

/-- The call of R183, and of R181 in mode Call: push pcNext, then PC <- nnn. -/
def callTo (op : Word) (nnn : Addr) (s : State) : Result :=
  match s.push s.pcNext with
  | some t => .next (t.jump (zextAddr nnn))
  | none => raise .stackOverflow (some op) s

/-- 00EE (R180). -/
def execRet (s : State) : Result :=
  match s.pop with
  | some (a, t) => .next (t.jump a)
  | none => raise .stackUnderflow (some (encode .ret)) s

/-- 0NNN (R181). -/
def execSys (nnn : Addr) (s : State) : Result :=
  match s.cfg.machineCall with
  | .call => callTo (encode (.sys nnn)) nnn s
  | .nop => .next s.advance

/-- 1NNN (R182). -/
def execJp (nnn : Addr) (s : State) : Result := .next (s.jump (zextAddr nnn))

/-- 2NNN (R183). -/
def execCall (nnn : Addr) (s : State) : Result := callTo (encode (.call nnn)) nnn s

/-- 3XNN (R184). -/
def execSeImm (x : Nibble) (nn : Byte) (s : State) : Result := .next (s.skipIf (s.getV x == nn))

/-- 4XNN (R185). -/
def execSneImm (x : Nibble) (nn : Byte) (s : State) : Result := .next (s.skipIf (s.getV x != nn))

/-- 5XY0 (R186). -/
def execSeReg (x y : Nibble) (s : State) : Result := .next (s.skipIf (s.getV x == s.getV y))

/-- 9XY0 (R187). -/
def execSneReg (x y : Nibble) (s : State) : Result := .next (s.skipIf (s.getV x != s.getV y))

/-- BNNN (R188). -/
def execJpV0 (nnn : Addr) (s : State) : Result := .next (s.jump (s.offsetTarget nnn))

end Sys2Proof.Machine
end

