-- ==== Sys2Proof/Machine/Framebuffer.lean ====
section
/-! DEFINITION. The framebuffer writer (spec/43_display.md R250 to R253). -/

namespace Sys2Proof.Machine

/-- `FB[x][y]`, with the wrapped coordinates of R250. -/
def Framebuffer.pixel (fb : Framebuffer) (x y : Nat) : Bool := fb[y % 32].getLsbD (x % 64)

/-- `FB[x][y] <- FB[x][y] ^ bit`, with the wrapped coordinates of R250. -/
def Framebuffer.xorPixel (fb : Framebuffer) (x y : Nat) (bit : Bool) : Framebuffer :=
  if bit then fb.set (y % 32) (fb[y % 32] ^^^ (1#64 <<< (x % 64))) else fb

/-- A framebuffer with every pixel 0 (R251). -/
def Framebuffer.cleared : Framebuffer := Vector.replicate 32 0#64

/-- Bit c of a sprite row, column 0 the most significant bit (R252). -/
def spriteBit (row : Byte) (c : Nat) : Bool := row.getLsbD (7 - c)

/-- One pixel of R252's loop: the framebuffer and whether a pixel went from 1 to 0 so far. -/
def drawPixel (x y : Nat) (bit : Bool) (acc : Framebuffer × Bool) : Framebuffer × Bool :=
  (acc.1.xorPixel x y bit, acc.2 || (bit && acc.1.pixel x y))

/-- Columns 0..7 of one sprite row, drawn at (cx, y). -/
def drawRow (cx y : Nat) (row : Byte) (acc : Framebuffer × Bool) : Framebuffer × Bool :=
  (List.range 8).foldl (fun acc c => drawPixel (cx + c) y (spriteBit row c) acc) acc

/-- The rows of a sprite from (cx, cy) down (R252). -/
def drawRows (cx cy : Nat) : List Byte → Framebuffer × Bool → Framebuffer × Bool
  | [], acc => acc
  | row :: rows, acc => drawRows cx (cy + 1) rows (drawRow cx cy row acc)

end Sys2Proof.Machine
end

