-- ==== Sys2Proof/Machine/Display.lean ====
section
/-! DEFINITION. The meanings of the display instructions (spec/43_display.md R251, R252, R254). The step
has cleared `drewLastStep` before it runs a meaning; 00E0 and a completed DXYN set it (R331). -/

namespace Sys2Proof.Machine

/-- 00E0 (R251). -/
def execCls (s : State) : Result :=
  .next { s.advance with fb := Framebuffer.cleared, drewLastStep := true }

/-- What DXYN's loop gives (R252): the framebuffer after it, and whether a pixel went from 1 to 0. -/
def State.drawSprite (s : State) (x y n : Nibble) : Framebuffer × Bool :=
  drawRows (s.getV x).toNat (s.getV y).toNat (s.readBytes s.i n.toNat) (s.fb, false)

/-- DXYN (R252). For n = 0 the range is empty, so the check passes (D26). -/
def execDrw (x y n : Nibble) (s : State) : Result :=
  if rangeOk s.i n.toNat then
    let drawn := s.drawSprite x y n
    .next ({ s.advance with fb := drawn.1, drewLastStep := true }.setV vf (bool2bit drawn.2))
  else raise .outOfBounds (some (encode (.drw x y n))) s

/-- FX29 (R254). -/
def execLdFVx (x : Nibble) (s : State) : Result :=
  .next (s.advance.setI (glyphAddress s.cfg (s.getV x)))

end Sys2Proof.Machine
end

