-- ==== Sys2Proof/Machine/MemoryTransfer.lean ====
section
/-! DEFINITION. The meanings of FX33, FX55 and FX65 (spec/45_memory_transfer.md R290 to R293). Every bounds
check comes before any write (R64, R68). -/

namespace Sys2Proof.Machine

/-- FX33 (R290). I is not changed. -/
def execLdBVx (x : Nibble) (s : State) : Result :=
  if rangeOk s.i 3 then .next (s.advance.writeBytes s.i.toNat (bcdDigits (s.getV x)))
  else raise .outOfBounds (some (encode (.ldBVx x))) s

/-- FX55 (R291). -/
def execLdMemVx (x : Nibble) (s : State) : Result :=
  if rangeOk s.i (transferCount x) then
    .next ((s.advance.writeBytes s.i.toNat (s.lowRegs x)).incrementIndex x)
  else raise .outOfBounds (some (encode (.ldMemVx x))) s

/-- FX65 (R292). -/
def execLdVxMem (x : Nibble) (s : State) : Result :=
  if rangeOk s.i (transferCount x) then .next ((s.advance.loadLowRegs x).incrementIndex x)
  else raise .outOfBounds (some (encode (.ldVxMem x))) s

end Sys2Proof.Machine
end

