-- ==== Sys2Proof/Machine/RegisterAlu.lean ====
section
/-! DEFINITION. The meanings of the register and ALU instructions (spec/42_register_alu.md R220 to R233).
Every one leaves PC at pcNext. -/

namespace Sys2Proof.Machine

/-- `V[x] <- b`, PC at pcNext. -/
def writeV (x : Nibble) (b : Byte) (s : State) : Result := .next (s.advance.setV x b)

/-- Result to V[x] and flag to VF in the configured order (R151), PC at pcNext. -/
def writeVAndFlag (x : Nibble) (rf : Byte × Byte) (s : State) : Result :=
  .next (s.advance.writeResultAndFlag x rf)

/-- 6XNN (R220). -/
def execLdImm (x : Nibble) (nn : Byte) (s : State) : Result := writeV x nn s

/-- 7XNN (R221): the sum wraps, and no flag is written. -/
def execAddImm (x : Nibble) (nn : Byte) (s : State) : Result := writeV x (s.getV x + nn) s

/-- 8XY0 (R222). -/
def execLdReg (x y : Nibble) (s : State) : Result := writeV x (s.getV y) s

/-- 8XY1 (R223). -/
def execOr (x y : Nibble) (s : State) : Result := writeV x (s.getV x ||| s.getV y) s

/-- 8XY2 (R224). -/
def execAnd (x y : Nibble) (s : State) : Result := writeV x (s.getV x &&& s.getV y) s

/-- 8XY3 (R225). -/
def execXor (x y : Nibble) (s : State) : Result := writeV x (s.getV x ^^^ s.getV y) s

/-- 8XY4 (R226). -/
def execAddReg (x y : Nibble) (s : State) : Result := writeVAndFlag x (add8 (s.getV x) (s.getV y)) s

/-- 8XY5 (R227). -/
def execSub (x y : Nibble) (s : State) : Result := writeVAndFlag x (sub8 (s.getV x) (s.getV y)) s

/-- 8XY6 (R228). -/
def execShr (x y : Nibble) (s : State) : Result := writeVAndFlag x (shr8 (s.shiftSrc x y)) s

/-- 8XY7 (R229). -/
def execSubn (x y : Nibble) (s : State) : Result := writeVAndFlag x (rsub8 (s.getV x) (s.getV y)) s

/-- 8XYE (R230). -/
def execShl (x y : Nibble) (s : State) : Result := writeVAndFlag x (shl8 (s.shiftSrc x y)) s

/-- ANNN (R231). -/
def execLdI (nnn : Addr) (s : State) : Result := .next (s.advance.setI (zextAddr nnn))

/-- CXNN with the draw `rnd` given (R232). -/
def rndWith (rnd : Byte) (x : Nibble) (nn : Byte) (s : State) : Result :=
  writeV x (rnd &&& nn) { s with draws := s.draws + 1 }

/-- CXNN (R232, R9): the draw is the free value of this execution. -/
def execRnd (x : Nibble) (nn : Byte) (s : State) : Result := rndWith (Config.freeDraw s.draws) x nn s

/-- FX1E (R233): the sum wraps mod 0x10000, and no flag is written. -/
def execAddIVx (x : Nibble) (s : State) : Result := .next (s.advance.setI (s.i + zextByte (s.getV x)))

end Sys2Proof.Machine
end

