-- ==== Sys2Proof/Machine/TimersKeys.lean ====
section
/-! DEFINITION. The meanings of the timer and keypad instructions (spec/44_timers_keys.md R270 to R276). -/

namespace Sys2Proof.Machine

/-- FX07 (R270). -/
def execLdVxDt (x : Nibble) (s : State) : Result := .next (s.advance.setV x s.dt)

/-- FX15 (R271). -/
def execLdDtVx (x : Nibble) (s : State) : Result := .next { s.advance with dt := s.getV x }

/-- FX18 (R272). -/
def execLdStVx (x : Nibble) (s : State) : Result := .next { s.advance with st := s.getV x }

/-- A skip on the key V[x] (R273, R274), `pressed` being the key state that skips; a V[x] above 0xF takes
the model-only fault of R276. -/
def skipOnKey (pressed : Bool) (x : Nibble) (s : State) : Result :=
  match keyIndex (s.getV x) with
  | some k => .next (s.skipIf (s.keyPressed k == pressed))
  | none => unmodelled .keyIndexRange s

/-- EX9E (R273). -/
def execSkp (x : Nibble) (s : State) : Result := skipOnKey true x s

/-- EXA1 (R274). -/
def execSknp (x : Nibble) (s : State) : Result := skipOnKey false x s

/-- FX0A (R275): the wait begins; the keyDown transaction ends it and writes V[x]
(Machine/Transactions.lean). -/
def execLdVxK (x : Nibble) (s : State) : Result := .next { s.advance with mode := .awaitingKey x }

end Sys2Proof.Machine
end

