-- ==== Sys2Proof/Machine/Fetch.lean ====
section
/-! DEFINITION. What the step does around an instruction (spec/40_engine.md R140 to R147): the fetch bound,
the decode, the output it clears, and how a program word is placed for the fetch. -/

namespace Sys2Proof.Machine

/-- R331: a step that does not complete 00E0 or DXYN leaves drewLastStep false, so the step clears it
first (notes/assumptions/8.md). -/
def State.beginStep (s : State) : State := { s with drewLastStep := false }

/-- What a fetch at PC finds (R143, R146, R147), in the check order of R321. -/
inductive Fetched where
  | outOfRange
  | unknown (op : Word)
  | instr (i : Instr)
deriving DecidableEq, Repr

/-- R143, R144, R146. -/
def State.fetch (s : State) : Fetched :=
  if s.pc.toNat ≤ maxFetch then
    match decode s.fetchOpcode with
    | .ok i => .instr i
    | .error _ => .unknown s.fetchOpcode
  else .outOfRange

/-- Bytes of `op` placed at PC, where the next fetch reads them (R65, R144). -/
def State.placeOpcode (s : State) (op : Word) : State := s.writeBytes s.pc.toNat (bytesOfOpcode op)

end Sys2Proof.Machine
end

