-- ==== Sys2Proof/Machine/Step.lean ====
section
/-! DEFINITION. One step (spec/40_engine.md R140, R152), and how a word of the opcode table is placed where
the step fetches. -/

namespace Sys2Proof.Machine

/-- R152. A step in AwaitingKey, Halted or Faulted changes nothing (R141, R142). -/
def step (s : State) : Host.Outcome State Fault Refusal :=
  match s.mode with
  | .running =>
    match s.fetch with
    | .instr i => exec i s.beginStep
    | .unknown op => raise .unknownOpcode (some op) s.beginStep
    | .outOfRange => raise .outOfBounds none s.beginStep
  | .awaitingKey _ | .halted _ | .faulted _ => .next s

/-- `s` with the instruction of a table word at PC, where a step in Running fetches (PC at most 0xFFE;
after reset it is 0x200). Only those two bytes of memory change. -/
def State.withFetchWord (s : State) (nbits w : Nat) : State := s.placeOpcode (opcodeOfTableWord nbits w)

end Sys2Proof.Machine
end

