-- ==== Sys2Proof/Machine/Transactions.lean ====
section
/-! DEFINITION. The host's transactions and the outputs of the block (spec/60_exceptions.md R324 to R331,
spec/70_reset_and_hazards.md R360 to R362). Transactions are atomic and come in any order (R322). -/

namespace Sys2Proof.Machine

/-- A timer's tick (R324): down by 1, never below 0. -/
def countDown (t : Byte) : Byte := if t = 0#8 then t else t - 1#8

/-- The tick of R324, taken in every mode. -/
def State.tick (s : State) : State := { s with dt := countDown s.dt, st := countDown s.st }

/-- keyDown of R326, then the end of a key wait (R327). A key code is a nibble: the host sends no other
(R326, D23). -/
def State.keyDown (s : State) (k : Nibble) : State :=
  let t := { s with key := s.key.set k.toNat true }
  match s.mode with
  | .awaitingKey x => { t.setV x (k.setWidth 8) with mode := .running }
  | .running | .halted _ | .faulted _ => t

/-- keyUp of R326. -/
def State.keyUp (s : State) (k : Nibble) : State := { s with key := s.key.set k.toNat false }

/-- What a ROM load answers (R328). -/
inductive LoadResult where
  | ok (s : State)
  /-- R315: rejected, no state changes. -/
  | romTooLarge
deriving DecidableEq, Repr

/-- loadRom of R328. -/
def State.loadRom (s : State) (rom : List Byte) : LoadResult :=
  if rom.length > maxRomLength then .romTooLarge else .ok (s.writeBytes programBase rom)

/-- The explicit reset (R360 to R362): the construction state with the configuration kept. The draw counter
goes on, so that later draws stay free (notes/assumptions/5.md). -/
def State.restart (s : State) : State := { State.construct s.cfg with draws := s.draws }

/-- The transactions of R330. -/
inductive Transaction where
  | step
  | tick
  | keyDown (k : Nibble)
  | keyUp (k : Nibble)
  | loadRom (rom : List Byte)
  | reset
deriving DecidableEq, Repr

/-- The state after one transaction. A rejected ROM load leaves the state as it is (R315). -/
def Transaction.apply (t : Transaction) (s : State) : Result :=
  match t with
  | .step => Sys2Proof.Machine.step s
  | .tick => .next s.tick
  | .keyDown k => .next (s.keyDown k)
  | .keyUp k => .next (s.keyUp k)
  | .loadRom rom =>
    match s.loadRom rom with
    | .ok u => .next u
    | .romTooLarge => .next s
  | .reset => .next s.restart

/-- A run: the host's transactions one after another, in the order it chose (R322). -/
def runTransactions : List Transaction → State → Result
  | [], s => .next s
  | t :: ts, s =>
    match t.apply s with
    | .next u => runTransactions ts u
    | .fault r => .fault r
    | .refused r => .refused r

/-! Outputs, none of which changes state (R330). -/

/-- R325. -/
def State.soundActive (s : State) : Bool := decide (s.st.toNat > 0)

/-- The render snapshot of R331: `FB[x][y]`. -/
def State.pixel (s : State) (x y : Nat) : Bool := s.fb.pixel x y

/-- The error record, when Halted (R330, R39). -/
def State.errorRecord (s : State) : Option ErrorRecord :=
  match s.mode with
  | .halted e => some e
  | .running | .awaitingKey _ | .faulted _ => none

/-- The numeric codes of R310 (D36: labels of the spec's own choice). -/
def ErrorKind.code : ErrorKind → Nat
  | .unknownOpcode => 1
  | .stackOverflow => 2
  | .stackUnderflow => 3
  | .outOfBounds => 4

/-- The code of RomTooLarge (R310). -/
def romTooLargeCode : Nat := 5

end Sys2Proof.Machine
end

