-- ==== Sys2Proof/Safety.lean ====
section
/-! DEFINITION. The terms claims use: the machine's invariant, what a safe run is, and what an instruction
leaves unchanged. -/

namespace Sys2Proof.Machine

/-- What an error record can say (60_exceptions.md R310 to R314): the opcode and the fetch address fit the
kind of the error. -/
def ErrorRecord.Sound (e : ErrorRecord) : Prop :=
  match e.kind, e.opcode with
  | .unknownOpcode, some op => decodeTag op = none ∧ e.pc.toNat ≤ 0xFFE
  | .stackOverflow, some op =>
    (∃ nnn, decodeTag op = some (.call nnn) ∨ decodeTag op = some (.sys nnn)) ∧ e.pc.toNat ≤ 0xFFE
  | .stackUnderflow, some op => op = 0x00EE#16 ∧ e.pc.toNat ≤ 0xFFE
  | .outOfBounds, some op =>
    (∃ x y n, decodeTag op = some (.drw x y n) ∨ decodeTag op = some (.ldBVx x) ∨
      decodeTag op = some (.ldMemVx x) ∨ decodeTag op = some (.ldVxMem x)) ∧ e.pc.toNat ≤ 0xFFE
  | .outOfBounds, none => e.pc.toNat > 0xFFE
  | .unknownOpcode, none | .stackOverflow, none | .stackUnderflow, none => False

/-- The machine's invariant: what holds at construction and after every transaction. -/
structure State.Inv (s : State) : Prop where
  /-- R8: the font table lies below 0x200. -/
  config      : s.cfg.wf = true
  /-- The memory has its canonical form, with no address above 0xFFF (R60). -/
  memory      : s.memoryWf = true
  /-- R34: SP is at most 16. -/
  stackDepth  : s.sp ≤ 16
  /-- R34: a stack entry is at most 0x1000. -/
  stackValues : ∀ a ∈ s.stack, a.toNat ≤ 0x1000
  /-- R33: PC is at most 0x10FE. -/
  pcBound     : s.pc.toNat ≤ 0x10FE
  /-- Only a step that completed 00E0 or DXYN leaves drewLastStep true, and it leaves mode Running (R331,
  R154). -/
  drew        : s.mode ≠ .running → s.drewLastStep = false
  /-- R39, R318: in Halted, PC is still the fetch address of the record, and the record is sound. -/
  record      : ∀ e, s.mode = .halted e → e.pc = s.pc ∧ e.Sound

/-- The engine has met no error. -/
def State.live (s : State) : Bool :=
  match s.mode with
  | .running | .awaitingKey _ => true
  | .halted _ | .faulted _ => false

/-- A safe run: after every prefix of the host's transactions the engine is live. R317 asks a claim about a
program to take 'mode is never Faulted' as a premise; a safe run gives it. -/
def SafeRun (ts : List Transaction) (s : State) : Prop :=
  ∀ us, us <+: ts → ∃ t, runTransactions us s = .next t ∧ t.live = true

/-- Which state an instruction may change, PC apart. -/
structure Footprint where
  /-- The V registers it may write. -/
  regs   : List Nibble := []
  index  : Bool := false
  stack  : Bool := false
  delay  : Bool := false
  sound  : Bool := false
  pixels : Bool := false
  /-- The addresses it may store to. -/
  memory : List Nat := []
  mode   : Bool := false
  drew   : Bool := false
  draws  : Bool := false
deriving DecidableEq, Repr

/-- `t` differs from `s` at most in PC and in what `w` names: every other register, timer, pixel, byte of
memory, key, stack entry, the mode, the outputs and the configuration are unchanged. -/
structure Frame (w : Footprint) (s t : State) : Prop where
  regs   : ∀ r, r ∉ w.regs → t.getV r = s.getV r
  index  : w.index = false → t.i = s.i
  stack  : w.stack = false → t.stack = s.stack
  delay  : w.delay = false → t.dt = s.dt
  sound  : w.sound = false → t.st = s.st
  pixels : w.pixels = false → ∀ x y, t.pixel x y = s.pixel x y
  memory : ∀ a, a ∉ w.memory → t.readByte a = s.readByte a
  mode   : w.mode = false → t.mode = s.mode
  drew   : w.drew = false → t.drewLastStep = s.drewLastStep
  draws  : w.draws = false → t.draws = s.draws
  keys   : ∀ k, t.keyPressed k = s.keyPressed k
  config : t.cfg = s.cfg

/-- The instruction completes: `exec` answers a next state, of which `P` holds. -/
def Completes (i : Instr) (s : State) (P : State → Prop) : Prop :=
  ∃ t, exec i s = .next t ∧ P t

/-- The instruction takes fatal error `kind` (R318): the next state is `s` but for the mode, which is Halted
with the record of the opcode `op` (as a number) and PC. -/
def Halts (i : Instr) (s : State) (kind : ErrorKind) (op : Nat) : Prop :=
  exec i s = .next { s with mode := .halted { kind := kind, opcode := some (BitVec.ofNat 16 op), pc := s.pc } }

/-- What an instruction that writes a result `r` to V[x] and a flag `f` to VF does (R151): it completes with
PC at pcNext; for x other than 15 both stand; for x = 15 `flagOrder` decides which one does. -/
def WritesResultAndFlag (i : Instr) (s : State) (x : Nibble) (r f : Nat) : Prop :=
  Completes i s fun t =>
    t.pc = s.pc + 2#16 ∧
    (x ≠ vf → (t.getV x).toNat = r ∧ (t.getV vf).toNat = f) ∧
    (x = vf → s.cfg.flagOrder = .flagLast → (t.getV vf).toNat = f) ∧
    (x = vf → s.cfg.flagOrder = .resultLast → (t.getV vf).toNat = r) ∧
    Frame { regs := [x, vf] } s t

/-- A set bit of the sprite `rows` drawn at (cx, cy) lands on the pixel (x, y) (R250, R252): row r of the
sprite goes to y = (cy + r) mod 32, its column c, counted from the most significant bit, to
x = (cx + c) mod 64. -/
def covers (cx cy : Nat) (rows : List Byte) (x y : Nat) : Prop :=
  ∃ r, r < rows.length ∧ ∃ c, c < 8 ∧
    spriteBit (rows.getD r 0#8) c = true ∧ (cx + c) % 64 = x % 64 ∧ (cy + r) % 32 = y % 32

/-- The sprite DXYN draws lands on the pixel (x, y): the n bytes at I drawn at (V[x], V[y]). -/
def State.spriteCovers (s : State) (x y n : Nibble) (px py : Nat) : Prop :=
  covers (s.getV x).toNat (s.getV y).toNat (s.readBytes s.i n.toNat) px py

/-- The write column of the access table R42 with R63: what each instruction may change, PC apart. The mode
is named where an instruction enters AwaitingKey or can raise an error of its own. -/
def footprint (s : State) : Instr → Footprint
  | .cls => { pixels := true, drew := true }
  | .ret => { stack := true, mode := true }
  | .sys _ => { stack := s.cfg.machineCall == .call, mode := s.cfg.machineCall == .call }
  | .jp _ | .seImm _ _ | .sneImm _ _ | .seReg _ _ | .sneReg _ _ | .jpV0 _ => {}
  | .call _ => { stack := true, mode := true }
  | .ldImm x _ | .addImm x _ | .ldReg x _ | .or x _ | .and x _ | .xor x _ | .ldVxDt x => { regs := [x] }
  | .addReg x _ | .sub x _ | .shr x _ | .subn x _ | .shl x _ => { regs := [x, vf] }
  | .ldI _ | .addIVx _ | .ldFVx _ => { index := true }
  | .rnd x _ => { regs := [x], draws := true }
  | .drw _ _ _ => { regs := [vf], pixels := true, drew := true, mode := true }
  | .skp _ | .sknp _ | .ldVxK _ => { mode := true }
  | .ldDtVx _ => { delay := true }
  | .ldStVx _ => { sound := true }
  | .ldBVx _ => { memory := addresses s.i 3, mode := true }
  | .ldMemVx x =>
    { memory := addresses s.i (transferCount x), index := s.cfg.indexIncrement == .plusXPlus1, mode := true }
  | .ldVxMem x =>
    { regs := (List.range (transferCount x)).map (BitVec.ofNat 4)
      index := s.cfg.indexIncrement == .plusXPlus1, mode := true }

/-- The illegal encodings of R112, by the digits of the opcode. -/
def illegalOpcode (op : Nat) : Prop :=
  let n3 := op / 4096 % 16
  let n := op % 16
  let nn := op % 256
  (n3 = 0x5 ∧ n ≠ 0) ∨ (n3 = 0x9 ∧ n ≠ 0) ∨
  (n3 = 0x8 ∧ n ∈ [0x8, 0x9, 0xA, 0xB, 0xC, 0xD, 0xF]) ∨
  (n3 = 0xE ∧ nn ∉ [0x9E, 0xA1]) ∨
  (n3 = 0xF ∧ nn ∉ [0x07, 0x0A, 0x15, 0x18, 0x1E, 0x29, 0x33, 0x55, 0x65])

end Sys2Proof.Machine
end

