-- ==== Sys2Proof/Certificates/Slice0/Obligations.lean ====
section
/-! DEFINITION. The statements for the provers, each a formal reading of rules of spec/. The vocabulary
(`Completes`, `Halts`, `Frame`, `Footprint`, `State.Inv`, …) is in Sys2Proof/Safety.lean. -/

open Sys2Proof Sys2Proof.Machine

/-! Encoding (spec/30_encoding.md). -/

/-- R102, R103 (counts 0 to 4), R101: the fields the decoder takes are the slices the spec names, and
`nibble` fails outside 0..3. -/
def Obligations.OpcodeFieldsAreTheSlicesOfTheWord : Prop :=
  ∀ op : Word,
    nibble op 3 = .ok (opN3 op).toNat ∧ nibble op 2 = .ok (opX op).toNat ∧
    nibble op 1 = .ok (opY op).toNat ∧ nibble op 0 = .ok (opN op).toNat ∧
    lowBits op 2 = .ok (opNN op).toNat ∧ lowBits op 3 = .ok (opNNN op).toNat ∧
    (opNN op).toNat = (opY op).toNat * 16 + (opN op).toNat ∧
    (opNNN op).toNat = (opX op).toNat * 256 + (opNN op).toNat ∧
    ∀ k, 3 < k → nibble op k = .error .invalidIndex

/-- Thirteen words, one or more per group (R106, R107, R109 to R111): twelve of the decode vectors of
spec/95_test_vectors.md section 2.1, and 0xD12A, the word of W1 in section 1 there. That 00E0 and 00EE come
before 0NNN is the spec's own choice D9 and that 5121 is Unknown its own choice D8 (log entry 24). -/
def Obligations.KnownWordsDecodeAsListed : Prop :=
  decode 0x00E0#16 = .ok .cls ∧ decode 0x00EE#16 = .ok .ret ∧
  decode 0x0000#16 = .ok (.sys 0x000#12) ∧ decode 0x0EE0#16 = .ok (.sys 0xEE0#12) ∧
  decode 0x5120#16 = .ok (.seReg 1#4 2#4) ∧ decode 0x5121#16 = .error (.unknownOpcode 0x5121#16) ∧
  decode 0x800E#16 = .ok (.shl 0#4 0#4) ∧ decode 0xE19E#16 = .ok (.skp 1#4) ∧
  decode 0xE1A1#16 = .ok (.sknp 1#4) ∧ decode 0xF165#16 = .ok (.ldVxMem 1#4) ∧
  decode 0xB123#16 = .ok (.jpV0 0x123#12) ∧ decode 0xD12A#16 = .ok (.drw 1#4 2#4 0xA#4) ∧
  decode 0xFFFF#16 = .error (.unknownOpcode 0xFFFF#16)

/-- Decoding the word of a well-formed instruction gives the instruction back, with every operand. Which terms
are well-formed rests on the spec's own choice D9 (R107, log entry 24). -/
def Obligations.DecodeOfEncodeIsTheInstruction : Prop :=
  ∀ i : Instr, i.wellFormed = true → decode (encode i) = .ok i

/-- R114: a word decodes to a well-formed instruction whose word it is, so no two words decode to one
instruction. In groups 5 and 9 that rests on the spec's own choice D8 (R108), and the well-formedness of a
decoded 0NNN on its own choice D9 (R107); both are log entry 24. -/
def Obligations.EncodeOfDecodeIsTheWord : Prop :=
  ∀ (op : Word) (i : Instr), decode op = .ok i → i.wellFormed = true ∧ encode i = op

/-- R112: exactly the listed encodings are rejected. That groups 5 and 9 are among them for n other than 0 is
the spec's own choice D8 (R108, log entry 24). -/
def Obligations.RejectedWordsAreTheIllegalEncodings : Prop :=
  ∀ op : Word, decode op = .error (.unknownOpcode op) ↔ illegalOpcode op.toNat

/-! Reset and the invariant. -/

/-- R45, R360: every piece of state after construction, for every configuration. The memory and keypad
values are the spec's own decisions D32 and D35; `draws` is the model's own field (log entry 5) and is not
named. The explicit reset gives the same and keeps the configuration (R361, D19). -/
def Obligations.ResetGivesEveryStateItsInitialValue : Prop :=
  ∀ s : State, ∀ r ∈ [State.construct s.cfg, s.restart],
    (∀ x, r.getV x = 0#8) ∧ r.i = 0#16 ∧ r.pc = 0x200#16 ∧ r.sp = 0 ∧ r.dt = 0#8 ∧ r.st = 0#8 ∧
    (∀ k, r.keyPressed k = false) ∧ (∀ x y, r.pixel x y = false) ∧ r.mode = .running ∧
    r.errorRecord = none ∧ r.drewLastStep = false ∧ r.cfg = s.cfg ∧
    (∀ k : Fin 80, r.readByte (s.cfg.fontBase.toNat + k.val) = s.cfg.fontData[k.val]) ∧
    ∀ a, a < s.cfg.fontBase.toNat ∨ s.cfg.fontBase.toNat + 80 ≤ a → r.readByte a = 0#8

/-- The invariant holds at construction with every configuration R8 allows, and at `State.reset`. -/
def Obligations.InvariantHoldsAtReset : Prop :=
  (∀ c : Config, c.wf = true → (State.construct c).Inv) ∧ State.reset.Inv

/-- Every step keeps the invariant: the memory stays canonical, SP stays at most 16 and its entries at most
0x1000 (R34), PC stays at most 0x10FE (R33), an error record stays sound and its pc stays PC (R39, R318: the spec's
own choice D14, log entry 32), and drewLastStep is false outside Running (R331, log entry 8). -/
def Obligations.StepKeepsTheInvariant : Prop :=
  ∀ s t : State, s.Inv → step s = .next t → t.Inv

/-- Every run of host transactions, in any order (R322, D18), keeps the invariant, all its clauses included:
drewLastStep false outside Running (R331, log entry 8) and the record's pc equal to PC in Halted (R318, the
spec's own choice D14, log entry 32). -/
def Obligations.TransactionsKeepTheInvariant : Prop :=
  ∀ (ts : List Transaction) (s t : State), s.Inv → runTransactions ts s = .next t → t.Inv

/-- Every instruction, every step and every run of transactions answers a next state: no error of the spec
stops the model (R310 to R318 leave states). -/
def Obligations.MachineAlwaysAnswersANextState : Prop :=
  (∀ (i : Instr) (s : State), ∃ t, exec i s = .next t) ∧ (∀ s : State, ∃ t, step s = .next t) ∧
  ∀ (ts : List Transaction) (s : State), ∃ t, runTransactions ts s = .next t

/-! The step (spec/40_engine.md). -/

/-- R152: when the word at PC decodes to `i`, a step in Running is `exec i` at that state with drewLastStep
cleared (R331, log entry 8); an instruction completes with the advance of R145 inside its meaning. -/
def Obligations.StepRunsTheDecodedInstruction : Prop :=
  ∀ (s : State) (i : Instr), s.mode = .running → s.pc.toNat ≤ 0xFFE → decode s.fetchOpcode = .ok i →
    step s = exec i { s with drewLastStep := false }

/-- R144, R65: the fetched opcode is Mem[PC] × 256 + Mem[PC + 1]; a word placed at PC is the one the next
step runs (R75: a write is seen by the next fetch). -/
def Obligations.FetchIsBigEndianAndSeesTheLastWrite : Prop :=
  (∀ s : State, s.fetchOpcode.toNat =
    (s.readByte s.pc.toNat).toNat * 256 + (s.readByte (s.pc.toNat + 1)).toNat) ∧
  ∀ (s : State) (op : Word), s.memoryWf = true → s.pc.toNat ≤ 0xFFE →
    ((s.writeByte s.pc.toNat (op.extractLsb' 8 8)).writeByte (s.pc.toNat + 1) (op.extractLsb' 0 8)).fetchOpcode
      = op

/-- A table word placed by `withFetchWord` is run by the very next step. -/
def Obligations.PlacedWordRunsNext : Prop :=
  ∀ (s : State) (w : Nat) (i : Instr), s.memoryWf = true → s.mode = .running → s.pc.toNat ≤ 0xFFE →
    decodeTableWord 16 w = some i →
    step (s.withFetchWord 16 w) = exec i { s.withFetchWord 16 w with drewLastStep := false }

/-- R143 (the record's opcode none is D15): a fetch above 0xFFE halts with OutOfBounds and changes nothing
else but the drewLastStep output (log entry 8). -/
def Obligations.FetchBeyondMemoryHalts : Prop :=
  ∀ s : State, s.mode = .running → 0xFFE < s.pc.toNat →
    step s = .next { s with
      drewLastStep := false
      mode := .halted { kind := .outOfBounds, opcode := none, pc := s.pc } }

/-- R311: an opcode that decodes to Unknown halts with its record; nothing else changes but the drewLastStep
output (log entry 8). -/
def Obligations.UnknownOpcodeHalts : Prop :=
  ∀ s : State, s.mode = .running → s.pc.toNat ≤ 0xFFE →
    decode s.fetchOpcode = .error (.unknownOpcode s.fetchOpcode) →
    step s = .next { s with
      drewLastStep := false
      mode := .halted { kind := .unknownOpcode, opcode := some s.fetchOpcode, pc := s.pc } }

/-- R141, R142 (D30): a step in AwaitingKey, Halted or Faulted changes nothing. -/
def Obligations.IdleModesIgnoreSteps : Prop :=
  ∀ s : State, s.mode ≠ .running → step s = .next s

/-- R318, R150 (D14): a step that enters Halted commits nothing else (but the drewLastStep output, log
entry 8), its record's pc is the fetch address, and for a legal opcode its kind is that instruction's own
error. -/
def Obligations.FatalErrorsCommitNothing : Prop :=
  ∀ (s t : State) (e : ErrorRecord), s.mode = .running → step s = .next t → t.mode = .halted e →
    t = { s with drewLastStep := false, mode := .halted e } ∧ e.pc = s.pc ∧
    (s.pc.toNat ≤ 0xFFE → e.opcode = some s.fetchOpcode) ∧ e.Sound

/-- R317 (D10): a step enters Faulted only for EX9E or EXA1 with V[x] above 0xF, and commits nothing. -/
def Obligations.FaultedOnlyForAKeyIndexOutOfRange : Prop :=
  ∀ (s t : State) (r : FaultReason), s.mode = .running → step s = .next t → t.mode = .faulted r →
    t = { s with drewLastStep := false, mode := .faulted .keyIndexRange } ∧
    ∃ x, (decode s.fetchOpcode = .ok (.skp x) ∨ decode s.fetchOpcode = .ok (.sknp x)) ∧
      15 < (s.getV x).toNat

/-- R42, R63, R37, R34 to R36: an instruction changes only what the access table names for it, in every
case, errors included. The keypad and the configuration are never written. -/
def Obligations.InstructionsWriteOnlyTheirFootprint : Prop :=
  ∀ (i : Instr) (s t : State), exec i s = .next t → Frame (footprint s i) s t

/-- The same for a step, whatever it fetches: a fetch that gives no instruction changes the mode only. The
step also writes the output drewLastStep (R331). -/
def Obligations.StepsWriteOnlyTheFetchedFootprint : Prop :=
  ∀ s t : State, s.mode = .running → step s = .next t →
    (∀ i, decode s.fetchOpcode = .ok i → s.pc.toNat ≤ 0xFFE → Frame { footprint s i with drew := true } s t) ∧
    ((∀ i, decode s.fetchOpcode ≠ .ok i) ∨ 0xFFE < s.pc.toNat → Frame { mode := true, drew := true } s t)

/-- R331 (D37): after a step in Running, drewLastStep is true exactly when 00E0 or DXYN completed. -/
def Obligations.DrewLastStepTellsACompletedDraw : Prop :=
  ∀ s t : State, s.mode = .running → step s = .next t →
    (t.drewLastStep = true ↔ t.mode = .running ∧ s.pc.toNat ≤ 0xFFE ∧
      (decode s.fetchOpcode = .ok .cls ∨ ∃ x y n, decode s.fetchOpcode = .ok (.drw x y n)))

/-! Control flow (spec/41_control_flow.md). -/

/-- R182. -/
def Obligations.JumpGoesToItsTarget : Prop :=
  ∀ (nnn : Addr) (s : State), Completes (.jp nnn) s fun t => t.pc.toNat = nnn.toNat ∧ Frame {} s t

/-- R183: below 16 entries the call pushes pcNext and jumps; with 16 it halts with StackOverflow and nothing
commits. -/
def Obligations.CallPushesAndJumpsOrOverflows : Prop :=
  ∀ (nnn : Addr) (s : State),
    (s.sp < 16 → Completes (.call nnn) s fun t =>
      t.pc.toNat = nnn.toNat ∧ t.sp = s.sp + 1 ∧ t.stackEntry s.sp = some (s.pc + 2#16) ∧
      (∀ k, k < s.sp → t.stackEntry k = s.stackEntry k) ∧ Frame { stack := true } s t) ∧
    (s.sp = 16 → Halts (.call nnn) s .stackOverflow (0x2000 + nnn.toNat))

/-- R181: in mode Call exactly the call of R183; in mode Nop only the advance. (Which mode a machine has is
its configuration; the default Call is D3.) -/
def Obligations.MachineCallFollowsItsConfiguration : Prop :=
  ∀ (nnn : Addr) (s : State),
    (s.cfg.machineCall = .call → s.sp < 16 → Completes (.sys nnn) s fun t =>
      t.pc.toNat = nnn.toNat ∧ t.sp = s.sp + 1 ∧ t.stackEntry s.sp = some (s.pc + 2#16) ∧
      (∀ k, k < s.sp → t.stackEntry k = s.stackEntry k) ∧ Frame { stack := true } s t) ∧
    (s.cfg.machineCall = .call → s.sp = 16 → Halts (.sys nnn) s .stackOverflow nnn.toNat) ∧
    (s.cfg.machineCall = .nop → Completes (.sys nnn) s fun t => t.pc = s.pc + 2#16 ∧ Frame {} s t)

/-- R180: the top entry goes to PC; with an empty stack the return halts with StackUnderflow and nothing
commits. -/
def Obligations.ReturnPopsOrUnderflows : Prop :=
  ∀ s : State,
    (∀ a, 0 < s.sp → s.stackEntry (s.sp - 1) = some a → Completes .ret s fun t =>
      t.pc = a ∧ t.sp = s.sp - 1 ∧ (∀ k, k < t.sp → t.stackEntry k = s.stackEntry k) ∧
      Frame { stack := true } s t) ∧
    (s.sp = 0 → Halts .ret s .stackUnderflow 0x00EE)

/-- R180, R183: a return at any address after a call gives the address after the call and the old stack. -/
def Obligations.ReturnUndoesACall : Prop :=
  ∀ (nnn : Addr) (s : State) (p : Word), s.sp < 16 →
    ∃ t u, exec (.call nnn) s = .next t ∧ exec .ret { t with pc := p } = .next u ∧
      u.pc = s.pc + 2#16 ∧ u.stack = s.stack

/-- R184, R185: a taken skip leaves PC at pcFetch + 4, one not taken at pcFetch + 2. -/
def Obligations.ImmediateSkipsCompareAsStated : Prop :=
  ∀ (x : Nibble) (nn : Byte) (s : State),
    (Completes (.seImm x nn) s fun t =>
      ((s.getV x).toNat = nn.toNat → t.pc = s.pc + 4#16) ∧
      ((s.getV x).toNat ≠ nn.toNat → t.pc = s.pc + 2#16) ∧ Frame {} s t) ∧
    (Completes (.sneImm x nn) s fun t =>
      ((s.getV x).toNat ≠ nn.toNat → t.pc = s.pc + 4#16) ∧
      ((s.getV x).toNat = nn.toNat → t.pc = s.pc + 2#16) ∧ Frame {} s t)

/-- R186, R187. -/
def Obligations.RegisterSkipsCompareAsStated : Prop :=
  ∀ (x y : Nibble) (s : State),
    (Completes (.seReg x y) s fun t =>
      ((s.getV x).toNat = (s.getV y).toNat → t.pc = s.pc + 4#16) ∧
      ((s.getV x).toNat ≠ (s.getV y).toNat → t.pc = s.pc + 2#16) ∧ Frame {} s t) ∧
    (Completes (.sneReg x y) s fun t =>
      ((s.getV x).toNat ≠ (s.getV y).toNat → t.pc = s.pc + 4#16) ∧
      ((s.getV x).toNat = (s.getV y).toNat → t.pc = s.pc + 2#16) ∧ Frame {} s t)

/-- R188 (no wrap: D1): the target is the exact sum nnn + V0. -/
def Obligations.OffsetJumpIsTheExactSum : Prop :=
  ∀ (nnn : Addr) (s : State),
    Completes (.jpV0 nnn) s fun t => t.pc.toNat = nnn.toNat + (s.getV 0#4).toNat ∧ Frame {} s t

/-! Registers and ALU (spec/42_register_alu.md). -/

/-- R220, R222. -/
def Obligations.LoadsPutTheOperandInTheRegister : Prop :=
  ∀ (x y : Nibble) (nn : Byte) (s : State),
    (Completes (.ldImm x nn) s fun t =>
      t.getV x = nn ∧ t.pc = s.pc + 2#16 ∧ Frame { regs := [x] } s t) ∧
    (Completes (.ldReg x y) s fun t =>
      t.getV x = s.getV y ∧ t.pc = s.pc + 2#16 ∧ Frame { regs := [x] } s t)

/-- R221: the sum wraps mod 256 and no flag is written (VF changes only as V[x] for x = 15). -/
def Obligations.AddImmediateWrapsAndSetsNoFlag : Prop :=
  ∀ (x : Nibble) (nn : Byte) (s : State),
    Completes (.addImm x nn) s fun t =>
      (t.getV x).toNat = ((s.getV x).toNat + nn.toNat) % 256 ∧ t.pc = s.pc + 2#16 ∧
      Frame { regs := [x] } s t

/-- R216, R223 to R225: bit by bit, with no flag written (VF changes only as V[x] for x = 15). -/
def Obligations.BitwiseOperationsWorkBitByBit : Prop :=
  ∀ (x y : Nibble) (s : State),
    (Completes (.or x y) s fun t =>
      (∀ k, k < 8 → (t.getV x).getLsbD k = ((s.getV x).getLsbD k || (s.getV y).getLsbD k)) ∧
      t.pc = s.pc + 2#16 ∧ Frame { regs := [x] } s t) ∧
    (Completes (.and x y) s fun t =>
      (∀ k, k < 8 → (t.getV x).getLsbD k = ((s.getV x).getLsbD k && (s.getV y).getLsbD k)) ∧
      t.pc = s.pc + 2#16 ∧ Frame { regs := [x] } s t) ∧
    (Completes (.xor x y) s fun t =>
      (∀ k, k < 8 → (t.getV x).getLsbD k = ((s.getV x).getLsbD k ^^ (s.getV y).getLsbD k)) ∧
      t.pc = s.pc + 2#16 ∧ Frame { regs := [x] } s t)

/-- R226, R210. -/
def Obligations.AddSetsTheCarry : Prop :=
  ∀ (x y : Nibble) (s : State),
    WritesResultAndFlag (.addReg x y) s x (((s.getV x).toNat + (s.getV y).toNat) % 256)
      (if (s.getV x).toNat + (s.getV y).toNat > 255 then 1 else 0)

/-- R227, R229, R211, R212: the flag is 1 when no borrow happened. -/
def Obligations.SubtractionsSetNoBorrow : Prop :=
  ∀ (x y : Nibble) (s : State),
    WritesResultAndFlag (.sub x y) s x ((256 + (s.getV x).toNat - (s.getV y).toNat) % 256)
      (if (s.getV x).toNat ≥ (s.getV y).toNat then 1 else 0) ∧
    WritesResultAndFlag (.subn x y) s x ((256 + (s.getV y).toNat - (s.getV x).toNat) % 256)
      (if (s.getV y).toNat ≥ (s.getV x).toNat then 1 else 0)

/-- R228, R230, R213 to R215: the source is V[x] or V[y] as `shiftOperand` says, and the flag is the bit
shifted out. -/
def Obligations.ShiftsTakeTheConfiguredSource : Prop :=
  ∀ (x y : Nibble) (s : State) (v : Nat),
    (s.cfg.shiftOperand = .vx ∧ v = (s.getV x).toNat) ∨
      (s.cfg.shiftOperand = .vy ∧ v = (s.getV y).toNat) →
    WritesResultAndFlag (.shr x y) s x (v / 2) (v % 2) ∧
    WritesResultAndFlag (.shl x y) s x (v * 2 % 256) (v / 128)

/-- R231, R233, R254: I gets nnn, I + V[x] mod 0x10000, or the glyph address fontBase + 5 × V[x] with no
mask; no V register changes. -/
def Obligations.IndexWritersGiveTheStatedAddress : Prop :=
  ∀ (x : Nibble) (nnn : Addr) (s : State),
    (Completes (.ldI nnn) s fun t =>
      t.i.toNat = nnn.toNat ∧ t.pc = s.pc + 2#16 ∧ Frame { index := true } s t) ∧
    (Completes (.addIVx x) s fun t =>
      t.i.toNat = (s.i.toNat + (s.getV x).toNat) % 0x10000 ∧ t.pc = s.pc + 2#16 ∧
      Frame { index := true } s t) ∧
    (Completes (.ldFVx x) s fun t =>
      t.i.toNat = s.cfg.fontBase.toNat + (s.getV x).toNat * 5 ∧ t.pc = s.pc + 2#16 ∧
      Frame { index := true } s t)

/-- R232, R9 (D16): with any draw `rnd` V[x] gets rnd AND nn; the draw of an execution is the free value of
the draw counter, and the counter advances, so that no two draws are tied together. -/
def Obligations.RandomByteIsAMaskedFreeDraw : Prop :=
  ∀ (x : Nibble) (nn : Byte) (s : State),
    (∀ rnd : Byte, ∃ t, rndWith rnd x nn s = .next t ∧
      (∀ k, k < 8 → (t.getV x).getLsbD k = (rnd.getLsbD k && nn.getLsbD k)) ∧ t.pc = s.pc + 2#16 ∧
      t.draws = s.draws + 1 ∧ Frame { regs := [x], draws := true } s t) ∧
    ∃ t, exec (.rnd x nn) s = .next t ∧ rndWith (Config.freeDraw s.draws) x nn s = .next t ∧
      t.getV x = Config.freeDraw s.draws &&& nn

/-! Display (spec/43_display.md). -/

/-- R251, R331. -/
def Obligations.ClearMakesEveryPixelZero : Prop :=
  ∀ s : State, Completes .cls s fun t =>
    (∀ x y, t.pixel x y = false) ∧ t.drewLastStep = true ∧ t.pc = s.pc + 2#16 ∧
    Frame { pixels := true, drew := true } s t

/-- R252, R250, R253 (n = 0 without a check: D26): a pixel the sprite covers is flipped, every other pixel
is as before, VF is 1 exactly when some pixel went from 1 to 0, and I is unchanged. Coordinates are read
before VF is written. -/
def Obligations.DrawFlipsTheCoveredPixels : Prop :=
  ∀ (x y n : Nibble) (s : State), n.toNat = 0 ∨ s.i.toNat + n.toNat ≤ 0x1000 →
    Completes (.drw x y n) s fun t =>
      (∀ px py, s.spriteCovers x y n px py → t.pixel px py = !s.pixel px py) ∧
      (∀ px py, ¬s.spriteCovers x y n px py → t.pixel px py = s.pixel px py) ∧
      ((∃ px py, s.pixel px py = true ∧ t.pixel px py = false) → t.getV vf = 1#8) ∧
      ((¬∃ px py, s.pixel px py = true ∧ t.pixel px py = false) → t.getV vf = 0#8) ∧
      t.drewLastStep = true ∧ t.pc = s.pc + 2#16 ∧
      Frame { regs := [vf], pixels := true, drew := true } s t

/-- R252, R314: a sprite row above 0xFFF halts the draw with OutOfBounds, and nothing commits. -/
def Obligations.DrawBeyondMemoryHalts : Prop :=
  ∀ (x y n : Nibble) (s : State), 0 < n.toNat → 0xFFF < s.i.toNat + n.toNat - 1 →
    Halts (.drw x y n) s .outOfBounds (0xD000 + x.toNat * 256 + y.toNat * 16 + n.toNat)

/-- R252 (the source's property): drawing the same sprite twice at the same coordinate gives every pixel
back; if the first draw met no set pixel and covered at least one, the second reports VF = 1. The coordinate
registers are not VF, which the first draw overwrites. -/
def Obligations.DrawingTwiceRestoresThePixels : Prop :=
  ∀ (x y n : Nibble) (s : State), x ≠ vf → y ≠ vf → n.toNat = 0 ∨ s.i.toNat + n.toNat ≤ 0x1000 →
    ∃ t u, exec (.drw x y n) s = .next t ∧ exec (.drw x y n) t = .next u ∧
      (∀ px py, u.pixel px py = s.pixel px py) ∧
      (t.getV vf = 0#8 → (∃ px py, s.spriteCovers x y n px py) → u.getV vf = 1#8)

/-! Timers and keys (spec/44_timers_keys.md, 60_exceptions.md). -/

/-- R270, R271, R272. -/
def Obligations.TimerInstructionsMoveOneByte : Prop :=
  ∀ (x : Nibble) (s : State),
    (Completes (.ldVxDt x) s fun t =>
      t.getV x = s.dt ∧ t.pc = s.pc + 2#16 ∧ Frame { regs := [x] } s t) ∧
    (Completes (.ldDtVx x) s fun t =>
      t.dt = s.getV x ∧ t.pc = s.pc + 2#16 ∧ Frame { delay := true } s t) ∧
    (Completes (.ldStVx x) s fun t =>
      t.st = s.getV x ∧ (t.soundActive = true ↔ s.getV x ≠ 0#8) ∧ t.pc = s.pc + 2#16 ∧
      Frame { sound := true } s t)

/-- R273, R274, R276 (V[x] above 0xF: D10): the skip tests the key V[x]; an index above 0xF takes the
model-only fault and nothing commits. -/
def Obligations.KeySkipsTestTheNamedKey : Prop :=
  ∀ (x k : Nibble) (s : State),
    ((s.getV x).toNat = k.toNat → Completes (.skp x) s fun t =>
      (s.keyPressed k = true → t.pc = s.pc + 4#16) ∧ (s.keyPressed k = false → t.pc = s.pc + 2#16) ∧
      Frame {} s t) ∧
    ((s.getV x).toNat = k.toNat → Completes (.sknp x) s fun t =>
      (s.keyPressed k = false → t.pc = s.pc + 4#16) ∧ (s.keyPressed k = true → t.pc = s.pc + 2#16) ∧
      Frame {} s t) ∧
    (15 < (s.getV x).toNat →
      exec (.skp x) s = .next { s with mode := .faulted .keyIndexRange } ∧
      exec (.sknp x) s = .next { s with mode := .faulted .keyIndexRange })

/-- R275 (D11): FX0A enters the wait with PC at pcNext and writes no register. -/
def Obligations.KeyWaitBegins : Prop :=
  ∀ (x : Nibble) (s : State), Completes (.ldVxK x) s fun t =>
    t.mode = .awaitingKey x ∧ t.pc = s.pc + 2#16 ∧ Frame { mode := true } s t

/-- R326, R327 (D11, D23): keyDown presses the key; in a wait it also writes the code to V[x] and ends the
wait, PC unchanged; in any other mode nothing else changes. keyUp releases the key only. -/
def Obligations.KeyEventsUpdateTheKeypadAndEndTheWait : Prop :=
  ∀ (k : Nibble) (s : State),
    (∀ r, (s.keyDown k).keyPressed r = (decide (r = k) || s.keyPressed r)) ∧
    (∀ r, (s.keyUp k).keyPressed r = (!decide (r = k) && s.keyPressed r)) ∧
    (∀ x, s.mode = .awaitingKey x →
      s.keyDown k = { s.setV x (BitVec.ofNat 8 k.toNat) with mode := .running, key := (s.keyDown k).key }) ∧
    ((∀ x, s.mode ≠ .awaitingKey x) → s.keyDown k = { s with key := (s.keyDown k).key }) ∧
    s.keyUp k = { s with key := (s.keyUp k).key }

/-- R275, R327, R142, R324, R334 (D11, D17): after FX0A, any number of steps, ticks and keyUps changes
nothing but the timers and the keypad; the next keyDown(k) puts k in V[x] and resumes at the instruction
after FX0A. -/
def Obligations.KeyWaitLastsUntilAKeyDown : Prop :=
  ∀ (x k : Nibble) (s : State) (ts : List Transaction), s.mode = .running → s.pc.toNat ≤ 0xFFE →
    decode s.fetchOpcode = .ok (.ldVxK x) →
    (∀ t ∈ ts, t = .step ∨ t = .tick ∨ ∃ j, t = .keyUp j) →
    (∃ u, runTransactions (.step :: ts) s = .next u ∧ u.mode = .awaitingKey x ∧ u.pc = s.pc + 2#16 ∧
      u.v = s.v ∧ u.i = s.i ∧ u.stack = s.stack ∧ u.fb = s.fb ∧ u.mem = s.mem) ∧
    ∃ u, runTransactions (.step :: ts ++ [.keyDown k]) s = .next u ∧ u.mode = .running ∧
      u.pc = s.pc + 2#16 ∧ (u.getV x).toNat = k.toNat ∧ (∀ r, r ≠ x → u.getV r = s.getV r) ∧
      u.keyPressed k = true

/-- R324 (in every mode: D17): each timer goes down by 1 and never below 0, and nothing else changes. -/
def Obligations.TickCountsBothTimersDown : Prop :=
  ∀ s : State, s.tick.dt.toNat = s.dt.toNat - 1 ∧ s.tick.st.toNat = s.st.toNat - 1 ∧
    s.tick = { s with dt := s.tick.dt, st := s.tick.st }

/-- R324, R365: for a step that runs none of FX07, FX15 and FX18 it makes no difference whether a tick comes
before or after it. For a step that enters Halted or Faulted, and in every mode but Running, this rests on
the tick counting there too, the spec's own choice D17 (log entry 18). -/
def Obligations.TickCommutesWithStepsThatUseNoTimer : Prop :=
  ∀ s : State, (∀ x, decode s.fetchOpcode ≠ .ok (.ldVxDt x) ∧ decode s.fetchOpcode ≠ .ok (.ldDtVx x) ∧
      decode s.fetchOpcode ≠ .ok (.ldStVx x)) →
    runTransactions [.tick, .step] s = runTransactions [.step, .tick] s

/-! Memory transfer (spec/45_memory_transfer.md). -/

/-- R290: the three decimal digits at I, I + 1, I + 2, I unchanged; out of bounds it halts and nothing
commits. -/
def Obligations.BcdStoresTheDecimalDigits : Prop :=
  ∀ (x : Nibble) (s : State),
    (s.memoryWf = true → s.i.toNat + 2 ≤ 0xFFF → Completes (.ldBVx x) s fun t =>
      (t.readByte s.i.toNat).toNat = (s.getV x).toNat / 100 ∧
      (t.readByte (s.i.toNat + 1)).toNat = (s.getV x).toNat / 10 % 10 ∧
      (t.readByte (s.i.toNat + 2)).toNat = (s.getV x).toNat % 10 ∧
      t.pc = s.pc + 2#16 ∧ Frame { memory := addresses s.i 3 } s t) ∧
    (0xFFF < s.i.toNat + 2 → Halts (.ldBVx x) s .outOfBounds (0xF033 + x.toNat * 256))

/-- R291, R293: V0..V[x] at I..I + x; I as `indexIncrement` says; out of bounds it halts and nothing
commits. -/
def Obligations.StoreWritesTheLowRegisters : Prop :=
  ∀ (x : Nibble) (s : State),
    (s.memoryWf = true → s.i.toNat + x.toNat ≤ 0xFFF → Completes (.ldMemVx x) s fun t =>
      (∀ k : Nibble, k.toNat ≤ x.toNat → t.readByte (s.i.toNat + k.toNat) = s.getV k) ∧
      (s.cfg.indexIncrement = .unchanged → t.i = s.i) ∧
      (s.cfg.indexIncrement = .plusXPlus1 → t.i.toNat = s.i.toNat + x.toNat + 1) ∧
      t.pc = s.pc + 2#16 ∧
      Frame { memory := addresses s.i (transferCount x), index := true } s t) ∧
    (0xFFF < s.i.toNat + x.toNat → Halts (.ldMemVx x) s .outOfBounds (0xF055 + x.toNat * 256))

/-- R292, R293 (out of bounds: D12): the bytes at I..I + x go to V0..V[x], registers above x are unchanged,
memory is unchanged; I as `indexIncrement` says; out of bounds it halts and nothing commits. -/
def Obligations.LoadReadsTheLowRegisters : Prop :=
  ∀ (x : Nibble) (s : State),
    (s.i.toNat + x.toNat ≤ 0xFFF → Completes (.ldVxMem x) s fun t =>
      (∀ k : Nibble, k.toNat ≤ x.toNat → t.getV k = s.readByte (s.i.toNat + k.toNat)) ∧
      (∀ k : Nibble, x.toNat < k.toNat → t.getV k = s.getV k) ∧
      (s.cfg.indexIncrement = .unchanged → t.i = s.i) ∧
      (s.cfg.indexIncrement = .plusXPlus1 → t.i.toNat = s.i.toNat + x.toNat + 1) ∧
      t.pc = s.pc + 2#16 ∧
      Frame { regs := (List.range (x.toNat + 1)).map (BitVec.ofNat 4), index := true } s t) ∧
    (0xFFF < s.i.toNat + x.toNat → Halts (.ldVxMem x) s .outOfBounds (0xF065 + x.toNat * 256))

/-- R291, R292: a store and then a load through the same I gives the stored registers back, whatever the V
registers hold in between. -/
def Obligations.LoadGivesBackWhatStoreWrote : Prop :=
  ∀ (x : Nibble) (s : State) (w : Vector Byte 16), s.memoryWf = true → s.i.toNat + x.toNat ≤ 0xFFF →
    ∃ t u, exec (.ldMemVx x) s = .next t ∧ exec (.ldVxMem x) { t with v := w, i := s.i } = .next u ∧
      ∀ k : Nibble, k.toNat ≤ x.toNat → u.getV k = s.getV k

/-! Host transactions (spec/60_exceptions.md, spec/70_reset_and_hazards.md). -/

/-- R328, R315 (at any boundary: D20): a ROM of at most 3584 bytes stands at 0x200 afterwards and nothing
else changes; a longer one is rejected, and the transaction changes nothing. -/
def Obligations.RomLoadCopiesOrRejects : Prop :=
  ∀ (rom : List Byte) (s : State), s.memoryWf = true →
    (rom.length ≤ 3584 → ∃ t, s.loadRom rom = .ok t ∧ (Transaction.loadRom rom).apply s = .next t ∧
      (∀ k (h : k < rom.length), t.readByte (0x200 + k) = rom[k]) ∧ t.pc = s.pc ∧
      Frame { memory := (List.range rom.length).map (0x200 + ·) } s t) ∧
    (3584 < rom.length → s.loadRom rom = .romTooLarge ∧ (Transaction.loadRom rom).apply s = .next s)

/-- R40, R361: no transaction changes the configuration. -/
def Obligations.ConfigurationNeverChanges : Prop :=
  ∀ (ts : List Transaction) (s t : State), runTransactions ts s = .next t → t.cfg = s.cfg

/-- R141, R319 (D30): without a reset, a halted or faulted machine stays so, with its record, registers, PC,
stack and pixels; only the host's ticks, key events and loads act on it. -/
def Obligations.HaltedAndFaultedLastUntilReset : Prop :=
  ∀ (ts : List Transaction) (s t : State),
    (∃ e, s.mode = .halted e) ∨ (∃ r, s.mode = .faulted r) → (∀ u ∈ ts, u ≠ .reset) →
    runTransactions ts s = .next t →
    t.mode = s.mode ∧ t.v = s.v ∧ t.i = s.i ∧ t.pc = s.pc ∧ t.stack = s.stack ∧ t.fb = s.fb ∧
      t.drewLastStep = s.drewLastStep

/-- R319, R360: in a run from Running, a machine that is Halted or Faulted got there by a step; a reset
leaves every mode. -/
def Obligations.OnlyStepsHaltAndResetRevives : Prop :=
  (∀ (u : Transaction) (s t : State), s.live = true → u.apply s = .next t → t.live = false → u = .step) ∧
  ∀ s : State, ∃ t, Transaction.reset.apply s = .next t ∧ t.mode = .running ∧ t.pc = 0x200#16 ∧ t.cfg = s.cfg
end

