-- ==== Sys2Proof/Laws/Decode.lean ====
section
/-! SUPPORT. The fields of each format's words, and the words rebuilt from their fields. -/

namespace Sys2Proof

/-- A slice of a word as a number (R10). -/
theorem toNat_slice (op : Word) (lo len : Nat) :
    (op.extractLsb' lo len).toNat = op.toNat / 2 ^ lo % 2 ^ len := by
  simp [BitVec.extractLsb'_toNat, Nat.shiftRight_eq_div_pow]

/-- ADDR words as numbers. -/
theorem toNat_encodeAddr (c : Nibble) (nnn : Addr) :
    (encodeAddr c nnn).toNat = c.toNat * 4096 + nnn.toNat := by
  unfold encodeAddr
  rw [BitVec.toNat_append, ← Nat.shiftLeft_add_eq_or_of_lt nnn.isLt, Nat.shiftLeft_eq]

/-- REG_IMM words as numbers. -/
theorem toNat_encodeRegImm (c x : Nibble) (nn : Byte) :
    (encodeRegImm c x nn).toNat = c.toNat * 4096 + x.toNat * 256 + nn.toNat := by
  unfold encodeRegImm
  rw [BitVec.toNat_append, ← Nat.shiftLeft_add_eq_or_of_lt nn.isLt, Nat.shiftLeft_eq,
    BitVec.toNat_append, ← Nat.shiftLeft_add_eq_or_of_lt x.isLt, Nat.shiftLeft_eq]
  omega

/-- REG_REG words as numbers. -/
theorem toNat_encodeRegReg (c x y k : Nibble) :
    (encodeRegReg c x y k).toNat = c.toNat * 4096 + x.toNat * 256 + y.toNat * 16 + k.toNat := by
  unfold encodeRegReg
  rw [BitVec.toNat_append, ← Nat.shiftLeft_add_eq_or_of_lt k.isLt, Nat.shiftLeft_eq,
    BitVec.toNat_append, ← Nat.shiftLeft_add_eq_or_of_lt y.isLt, Nat.shiftLeft_eq,
    BitVec.toNat_append, ← Nat.shiftLeft_add_eq_or_of_lt x.isLt, Nat.shiftLeft_eq]
  omega

@[simp] theorem opN3_encodeAddr (c : Nibble) (nnn : Addr) : opN3 (encodeAddr c nnn) = c := by
  apply BitVec.eq_of_toNat_eq
  rw [opN3, toNat_slice, toNat_encodeAddr]
  omega

@[simp] theorem opNNN_encodeAddr (c : Nibble) (nnn : Addr) : opNNN (encodeAddr c nnn) = nnn := by
  apply BitVec.eq_of_toNat_eq
  rw [opNNN, toNat_slice, toNat_encodeAddr]
  omega

@[simp] theorem opN3_encodeRegImm (c x : Nibble) (nn : Byte) : opN3 (encodeRegImm c x nn) = c := by
  apply BitVec.eq_of_toNat_eq
  rw [opN3, toNat_slice, toNat_encodeRegImm]
  omega

@[simp] theorem opX_encodeRegImm (c x : Nibble) (nn : Byte) : opX (encodeRegImm c x nn) = x := by
  apply BitVec.eq_of_toNat_eq
  rw [opX, toNat_slice, toNat_encodeRegImm]
  omega

@[simp] theorem opNN_encodeRegImm (c x : Nibble) (nn : Byte) : opNN (encodeRegImm c x nn) = nn := by
  apply BitVec.eq_of_toNat_eq
  rw [opNN, toNat_slice, toNat_encodeRegImm]
  omega

@[simp] theorem opN3_encodeRegReg (c x y k : Nibble) : opN3 (encodeRegReg c x y k) = c := by
  apply BitVec.eq_of_toNat_eq
  rw [opN3, toNat_slice, toNat_encodeRegReg]
  omega

@[simp] theorem opX_encodeRegReg (c x y k : Nibble) : opX (encodeRegReg c x y k) = x := by
  apply BitVec.eq_of_toNat_eq
  rw [opX, toNat_slice, toNat_encodeRegReg]
  omega

@[simp] theorem opY_encodeRegReg (c x y k : Nibble) : opY (encodeRegReg c x y k) = y := by
  apply BitVec.eq_of_toNat_eq
  rw [opY, toNat_slice, toNat_encodeRegReg]
  omega

@[simp] theorem opN_encodeRegReg (c x y k : Nibble) : opN (encodeRegReg c x y k) = k := by
  apply BitVec.eq_of_toNat_eq
  rw [opN, toNat_slice, toNat_encodeRegReg]
  omega

/-- A word is the ADDR word of its fields. -/
theorem encodeAddr_fields (op : Word) : encodeAddr (opN3 op) (opNNN op) = op := by
  apply BitVec.eq_of_toNat_eq
  rw [toNat_encodeAddr, opN3, opNNN, toNat_slice, toNat_slice]
  omega

/-- A word is the REG_IMM word of its fields. -/
theorem encodeRegImm_fields (op : Word) : encodeRegImm (opN3 op) (opX op) (opNN op) = op := by
  apply BitVec.eq_of_toNat_eq
  rw [toNat_encodeRegImm, opN3, opX, opNN, toNat_slice, toNat_slice, toNat_slice]
  omega

/-- A word is the REG_REG word of its fields. -/
theorem encodeRegReg_fields (op : Word) : encodeRegReg (opN3 op) (opX op) (opY op) (opN op) = op := by
  apply BitVec.eq_of_toNat_eq
  rw [toNat_encodeRegReg, opN3, opX, opY, opN, toNat_slice, toNat_slice, toNat_slice, toNat_slice]
  omega

/-- The two bytes of an opcode form it again (R65). -/
theorem opcodeOfBytes_slices (op : Word) :
    opcodeOfBytes (op.extractLsb' 8 8) (op.extractLsb' 0 8) = op := by
  apply BitVec.eq_of_toNat_eq
  unfold opcodeOfBytes
  rw [BitVec.toNat_append, ← Nat.shiftLeft_add_eq_or_of_lt (BitVec.isLt _), Nat.shiftLeft_eq,
    toNat_slice, toNat_slice]
  omega

/-- `decode` gives an instruction exactly where `decodeTag` does. -/
theorem decode_eq_ok (op : Word) (i : Instr) : decode op = .ok i ↔ decodeTag op = some i := by
  unfold decode
  cases decodeTag op <;> simp

/-- The one way `decode` rejects a word. -/
theorem decode_eq_error (op : Word) (e : DecodeError) :
    decode op = .error e ↔ decodeTag op = none ∧ e = .unknownOpcode op := by
  unfold decode
  cases decodeTag op <;> simp [eq_comm]

/-- The decoder over an opcode's two bytes is the decoder of the opcode. -/
theorem decodeBytes_bytesOfOpcode (op : Word) (rest : List Byte) :
    decodeBytes (bytesOfOpcode op ++ rest) = (decode op).map (·, rest) := by
  simp only [bytesOfOpcode, List.cons_append, List.nil_append, decodeBytes, opcodeOfBytes_slices]
  cases decode op <;> rfl

end Sys2Proof
end

