-- ==== Sys2Proof/Laws/State.lean ====
section
/-! SUPPORT. One lemma per field per update of State, so that no proof unfolds a record update, and the
reads of registers, keys, pixels and bytes through each update. -/

namespace Sys2Proof.Machine

@[simp] theorem State.setV_i (s : State) (x : Nibble) (b : Byte) : (s.setV x b).i = s.i := rfl
@[simp] theorem State.setV_pc (s : State) (x : Nibble) (b : Byte) : (s.setV x b).pc = s.pc := rfl
@[simp] theorem State.setV_stack (s : State) (x : Nibble) (b : Byte) : (s.setV x b).stack = s.stack := rfl
@[simp] theorem State.setV_dt (s : State) (x : Nibble) (b : Byte) : (s.setV x b).dt = s.dt := rfl
@[simp] theorem State.setV_st (s : State) (x : Nibble) (b : Byte) : (s.setV x b).st = s.st := rfl
@[simp] theorem State.setV_key (s : State) (x : Nibble) (b : Byte) : (s.setV x b).key = s.key := rfl
@[simp] theorem State.setV_fb (s : State) (x : Nibble) (b : Byte) : (s.setV x b).fb = s.fb := rfl
@[simp] theorem State.setV_mem (s : State) (x : Nibble) (b : Byte) : (s.setV x b).mem = s.mem := rfl
@[simp] theorem State.setV_mode (s : State) (x : Nibble) (b : Byte) : (s.setV x b).mode = s.mode := rfl
@[simp] theorem State.setV_drewLastStep (s : State) (x : Nibble) (b : Byte) : (s.setV x b).drewLastStep = s.drewLastStep := rfl
@[simp] theorem State.setV_cfg (s : State) (x : Nibble) (b : Byte) : (s.setV x b).cfg = s.cfg := rfl
@[simp] theorem State.setV_draws (s : State) (x : Nibble) (b : Byte) : (s.setV x b).draws = s.draws := rfl
@[simp] theorem State.setV_keyPressed (s : State) (x : Nibble) (b : Byte) (k' : Nibble) : (s.setV x b).keyPressed k' = s.keyPressed k' := rfl
@[simp] theorem State.setV_pixel (s : State) (x : Nibble) (b : Byte) (px py : Nat) : (s.setV x b).pixel px py = s.pixel px py := rfl
@[simp] theorem State.setV_readByte (s : State) (x : Nibble) (b : Byte) (p : Nat) : (s.setV x b).readByte p = s.readByte p := rfl
@[simp] theorem State.setV_memoryWf (s : State) (x : Nibble) (b : Byte) : (s.setV x b).memoryWf = s.memoryWf := rfl

@[simp] theorem State.setI_v (s : State) (w : Word) : (s.setI w).v = s.v := rfl
@[simp] theorem State.setI_i (s : State) (w : Word) : (s.setI w).i = w := rfl
@[simp] theorem State.setI_pc (s : State) (w : Word) : (s.setI w).pc = s.pc := rfl
@[simp] theorem State.setI_stack (s : State) (w : Word) : (s.setI w).stack = s.stack := rfl
@[simp] theorem State.setI_dt (s : State) (w : Word) : (s.setI w).dt = s.dt := rfl
@[simp] theorem State.setI_st (s : State) (w : Word) : (s.setI w).st = s.st := rfl
@[simp] theorem State.setI_key (s : State) (w : Word) : (s.setI w).key = s.key := rfl
@[simp] theorem State.setI_fb (s : State) (w : Word) : (s.setI w).fb = s.fb := rfl
@[simp] theorem State.setI_mem (s : State) (w : Word) : (s.setI w).mem = s.mem := rfl
@[simp] theorem State.setI_mode (s : State) (w : Word) : (s.setI w).mode = s.mode := rfl
@[simp] theorem State.setI_drewLastStep (s : State) (w : Word) : (s.setI w).drewLastStep = s.drewLastStep := rfl
@[simp] theorem State.setI_cfg (s : State) (w : Word) : (s.setI w).cfg = s.cfg := rfl
@[simp] theorem State.setI_draws (s : State) (w : Word) : (s.setI w).draws = s.draws := rfl
@[simp] theorem State.setI_getV (s : State) (w : Word) (r : Nibble) : (s.setI w).getV r = s.getV r := rfl
@[simp] theorem State.setI_keyPressed (s : State) (w : Word) (k' : Nibble) : (s.setI w).keyPressed k' = s.keyPressed k' := rfl
@[simp] theorem State.setI_pixel (s : State) (w : Word) (px py : Nat) : (s.setI w).pixel px py = s.pixel px py := rfl
@[simp] theorem State.setI_readByte (s : State) (w : Word) (p : Nat) : (s.setI w).readByte p = s.readByte p := rfl
@[simp] theorem State.setI_memoryWf (s : State) (w : Word) : (s.setI w).memoryWf = s.memoryWf := rfl

@[simp] theorem State.advance_v (s : State) : s.advance.v = s.v := rfl
@[simp] theorem State.advance_i (s : State) : s.advance.i = s.i := rfl
@[simp] theorem State.advance_pc (s : State) : s.advance.pc = s.pcNext := rfl
@[simp] theorem State.advance_stack (s : State) : s.advance.stack = s.stack := rfl
@[simp] theorem State.advance_dt (s : State) : s.advance.dt = s.dt := rfl
@[simp] theorem State.advance_st (s : State) : s.advance.st = s.st := rfl
@[simp] theorem State.advance_key (s : State) : s.advance.key = s.key := rfl
@[simp] theorem State.advance_fb (s : State) : s.advance.fb = s.fb := rfl
@[simp] theorem State.advance_mem (s : State) : s.advance.mem = s.mem := rfl
@[simp] theorem State.advance_mode (s : State) : s.advance.mode = s.mode := rfl
@[simp] theorem State.advance_drewLastStep (s : State) : s.advance.drewLastStep = s.drewLastStep := rfl
@[simp] theorem State.advance_cfg (s : State) : s.advance.cfg = s.cfg := rfl
@[simp] theorem State.advance_draws (s : State) : s.advance.draws = s.draws := rfl
@[simp] theorem State.advance_getV (s : State) (r : Nibble) : s.advance.getV r = s.getV r := rfl
@[simp] theorem State.advance_keyPressed (s : State) (k' : Nibble) : s.advance.keyPressed k' = s.keyPressed k' := rfl
@[simp] theorem State.advance_pixel (s : State) (px py : Nat) : s.advance.pixel px py = s.pixel px py := rfl
@[simp] theorem State.advance_readByte (s : State) (p : Nat) : s.advance.readByte p = s.readByte p := rfl
@[simp] theorem State.advance_memoryWf (s : State) : s.advance.memoryWf = s.memoryWf := rfl

@[simp] theorem State.jump_v (s : State) (a : Word) : (s.jump a).v = s.v := rfl
@[simp] theorem State.jump_i (s : State) (a : Word) : (s.jump a).i = s.i := rfl
@[simp] theorem State.jump_pc (s : State) (a : Word) : (s.jump a).pc = a := rfl
@[simp] theorem State.jump_stack (s : State) (a : Word) : (s.jump a).stack = s.stack := rfl
@[simp] theorem State.jump_dt (s : State) (a : Word) : (s.jump a).dt = s.dt := rfl
@[simp] theorem State.jump_st (s : State) (a : Word) : (s.jump a).st = s.st := rfl
@[simp] theorem State.jump_key (s : State) (a : Word) : (s.jump a).key = s.key := rfl
@[simp] theorem State.jump_fb (s : State) (a : Word) : (s.jump a).fb = s.fb := rfl
@[simp] theorem State.jump_mem (s : State) (a : Word) : (s.jump a).mem = s.mem := rfl
@[simp] theorem State.jump_mode (s : State) (a : Word) : (s.jump a).mode = s.mode := rfl
@[simp] theorem State.jump_drewLastStep (s : State) (a : Word) : (s.jump a).drewLastStep = s.drewLastStep := rfl
@[simp] theorem State.jump_cfg (s : State) (a : Word) : (s.jump a).cfg = s.cfg := rfl
@[simp] theorem State.jump_draws (s : State) (a : Word) : (s.jump a).draws = s.draws := rfl
@[simp] theorem State.jump_getV (s : State) (a : Word) (r : Nibble) : (s.jump a).getV r = s.getV r := rfl
@[simp] theorem State.jump_keyPressed (s : State) (a : Word) (k' : Nibble) : (s.jump a).keyPressed k' = s.keyPressed k' := rfl
@[simp] theorem State.jump_pixel (s : State) (a : Word) (px py : Nat) : (s.jump a).pixel px py = s.pixel px py := rfl
@[simp] theorem State.jump_readByte (s : State) (a : Word) (p : Nat) : (s.jump a).readByte p = s.readByte p := rfl
@[simp] theorem State.jump_memoryWf (s : State) (a : Word) : (s.jump a).memoryWf = s.memoryWf := rfl

@[simp] theorem State.skipIf_v (s : State) (c : Bool) : (s.skipIf c).v = s.v := rfl
@[simp] theorem State.skipIf_i (s : State) (c : Bool) : (s.skipIf c).i = s.i := rfl
@[simp] theorem State.skipIf_pc (s : State) (c : Bool) : (s.skipIf c).pc = if c then s.pcNext + 2#16 else s.pcNext := rfl
@[simp] theorem State.skipIf_stack (s : State) (c : Bool) : (s.skipIf c).stack = s.stack := rfl
@[simp] theorem State.skipIf_dt (s : State) (c : Bool) : (s.skipIf c).dt = s.dt := rfl
@[simp] theorem State.skipIf_st (s : State) (c : Bool) : (s.skipIf c).st = s.st := rfl
@[simp] theorem State.skipIf_key (s : State) (c : Bool) : (s.skipIf c).key = s.key := rfl
@[simp] theorem State.skipIf_fb (s : State) (c : Bool) : (s.skipIf c).fb = s.fb := rfl
@[simp] theorem State.skipIf_mem (s : State) (c : Bool) : (s.skipIf c).mem = s.mem := rfl
@[simp] theorem State.skipIf_mode (s : State) (c : Bool) : (s.skipIf c).mode = s.mode := rfl
@[simp] theorem State.skipIf_drewLastStep (s : State) (c : Bool) : (s.skipIf c).drewLastStep = s.drewLastStep := rfl
@[simp] theorem State.skipIf_cfg (s : State) (c : Bool) : (s.skipIf c).cfg = s.cfg := rfl
@[simp] theorem State.skipIf_draws (s : State) (c : Bool) : (s.skipIf c).draws = s.draws := rfl
@[simp] theorem State.skipIf_getV (s : State) (c : Bool) (r : Nibble) : (s.skipIf c).getV r = s.getV r := rfl
@[simp] theorem State.skipIf_keyPressed (s : State) (c : Bool) (k' : Nibble) : (s.skipIf c).keyPressed k' = s.keyPressed k' := rfl
@[simp] theorem State.skipIf_pixel (s : State) (c : Bool) (px py : Nat) : (s.skipIf c).pixel px py = s.pixel px py := rfl
@[simp] theorem State.skipIf_readByte (s : State) (c : Bool) (p : Nat) : (s.skipIf c).readByte p = s.readByte p := rfl
@[simp] theorem State.skipIf_memoryWf (s : State) (c : Bool) : (s.skipIf c).memoryWf = s.memoryWf := rfl

@[simp] theorem State.writeByte_v (s : State) (a : Nat) (b : Byte) : (s.writeByte a b).v = s.v := rfl
@[simp] theorem State.writeByte_i (s : State) (a : Nat) (b : Byte) : (s.writeByte a b).i = s.i := rfl
@[simp] theorem State.writeByte_pc (s : State) (a : Nat) (b : Byte) : (s.writeByte a b).pc = s.pc := rfl
@[simp] theorem State.writeByte_stack (s : State) (a : Nat) (b : Byte) : (s.writeByte a b).stack = s.stack := rfl
@[simp] theorem State.writeByte_dt (s : State) (a : Nat) (b : Byte) : (s.writeByte a b).dt = s.dt := rfl
@[simp] theorem State.writeByte_st (s : State) (a : Nat) (b : Byte) : (s.writeByte a b).st = s.st := rfl
@[simp] theorem State.writeByte_key (s : State) (a : Nat) (b : Byte) : (s.writeByte a b).key = s.key := rfl
@[simp] theorem State.writeByte_fb (s : State) (a : Nat) (b : Byte) : (s.writeByte a b).fb = s.fb := rfl
@[simp] theorem State.writeByte_mode (s : State) (a : Nat) (b : Byte) : (s.writeByte a b).mode = s.mode := rfl
@[simp] theorem State.writeByte_drewLastStep (s : State) (a : Nat) (b : Byte) : (s.writeByte a b).drewLastStep = s.drewLastStep := rfl
@[simp] theorem State.writeByte_cfg (s : State) (a : Nat) (b : Byte) : (s.writeByte a b).cfg = s.cfg := rfl
@[simp] theorem State.writeByte_draws (s : State) (a : Nat) (b : Byte) : (s.writeByte a b).draws = s.draws := rfl
@[simp] theorem State.writeByte_getV (s : State) (a : Nat) (b : Byte) (r : Nibble) : (s.writeByte a b).getV r = s.getV r := rfl
@[simp] theorem State.writeByte_keyPressed (s : State) (a : Nat) (b : Byte) (k' : Nibble) : (s.writeByte a b).keyPressed k' = s.keyPressed k' := rfl
@[simp] theorem State.writeByte_pixel (s : State) (a : Nat) (b : Byte) (px py : Nat) : (s.writeByte a b).pixel px py = s.pixel px py := rfl

@[simp] theorem State.loadLowRegs_i (s : State) (x : Nibble) : (s.loadLowRegs x).i = s.i := rfl
@[simp] theorem State.loadLowRegs_pc (s : State) (x : Nibble) : (s.loadLowRegs x).pc = s.pc := rfl
@[simp] theorem State.loadLowRegs_stack (s : State) (x : Nibble) : (s.loadLowRegs x).stack = s.stack := rfl
@[simp] theorem State.loadLowRegs_dt (s : State) (x : Nibble) : (s.loadLowRegs x).dt = s.dt := rfl
@[simp] theorem State.loadLowRegs_st (s : State) (x : Nibble) : (s.loadLowRegs x).st = s.st := rfl
@[simp] theorem State.loadLowRegs_key (s : State) (x : Nibble) : (s.loadLowRegs x).key = s.key := rfl
@[simp] theorem State.loadLowRegs_fb (s : State) (x : Nibble) : (s.loadLowRegs x).fb = s.fb := rfl
@[simp] theorem State.loadLowRegs_mem (s : State) (x : Nibble) : (s.loadLowRegs x).mem = s.mem := rfl
@[simp] theorem State.loadLowRegs_mode (s : State) (x : Nibble) : (s.loadLowRegs x).mode = s.mode := rfl
@[simp] theorem State.loadLowRegs_drewLastStep (s : State) (x : Nibble) : (s.loadLowRegs x).drewLastStep = s.drewLastStep := rfl
@[simp] theorem State.loadLowRegs_cfg (s : State) (x : Nibble) : (s.loadLowRegs x).cfg = s.cfg := rfl
@[simp] theorem State.loadLowRegs_draws (s : State) (x : Nibble) : (s.loadLowRegs x).draws = s.draws := rfl
@[simp] theorem State.loadLowRegs_keyPressed (s : State) (x : Nibble) (k' : Nibble) : (s.loadLowRegs x).keyPressed k' = s.keyPressed k' := rfl
@[simp] theorem State.loadLowRegs_pixel (s : State) (x : Nibble) (px py : Nat) : (s.loadLowRegs x).pixel px py = s.pixel px py := rfl
@[simp] theorem State.loadLowRegs_readByte (s : State) (x : Nibble) (p : Nat) : (s.loadLowRegs x).readByte p = s.readByte p := rfl
@[simp] theorem State.loadLowRegs_memoryWf (s : State) (x : Nibble) : (s.loadLowRegs x).memoryWf = s.memoryWf := rfl

@[simp] theorem State.beginStep_v (s : State) : s.beginStep.v = s.v := rfl
@[simp] theorem State.beginStep_i (s : State) : s.beginStep.i = s.i := rfl
@[simp] theorem State.beginStep_pc (s : State) : s.beginStep.pc = s.pc := rfl
@[simp] theorem State.beginStep_stack (s : State) : s.beginStep.stack = s.stack := rfl
@[simp] theorem State.beginStep_dt (s : State) : s.beginStep.dt = s.dt := rfl
@[simp] theorem State.beginStep_st (s : State) : s.beginStep.st = s.st := rfl
@[simp] theorem State.beginStep_key (s : State) : s.beginStep.key = s.key := rfl
@[simp] theorem State.beginStep_fb (s : State) : s.beginStep.fb = s.fb := rfl
@[simp] theorem State.beginStep_mem (s : State) : s.beginStep.mem = s.mem := rfl
@[simp] theorem State.beginStep_mode (s : State) : s.beginStep.mode = s.mode := rfl
@[simp] theorem State.beginStep_drewLastStep (s : State) : s.beginStep.drewLastStep = false := rfl
@[simp] theorem State.beginStep_cfg (s : State) : s.beginStep.cfg = s.cfg := rfl
@[simp] theorem State.beginStep_draws (s : State) : s.beginStep.draws = s.draws := rfl
@[simp] theorem State.beginStep_getV (s : State) (r : Nibble) : s.beginStep.getV r = s.getV r := rfl
@[simp] theorem State.beginStep_keyPressed (s : State) (k' : Nibble) : s.beginStep.keyPressed k' = s.keyPressed k' := rfl
@[simp] theorem State.beginStep_pixel (s : State) (px py : Nat) : s.beginStep.pixel px py = s.pixel px py := rfl
@[simp] theorem State.beginStep_readByte (s : State) (p : Nat) : s.beginStep.readByte p = s.readByte p := rfl
@[simp] theorem State.beginStep_memoryWf (s : State) : s.beginStep.memoryWf = s.memoryWf := rfl

@[simp] theorem State.tick_v (s : State) : s.tick.v = s.v := rfl
@[simp] theorem State.tick_i (s : State) : s.tick.i = s.i := rfl
@[simp] theorem State.tick_pc (s : State) : s.tick.pc = s.pc := rfl
@[simp] theorem State.tick_stack (s : State) : s.tick.stack = s.stack := rfl
@[simp] theorem State.tick_key (s : State) : s.tick.key = s.key := rfl
@[simp] theorem State.tick_fb (s : State) : s.tick.fb = s.fb := rfl
@[simp] theorem State.tick_mem (s : State) : s.tick.mem = s.mem := rfl
@[simp] theorem State.tick_mode (s : State) : s.tick.mode = s.mode := rfl
@[simp] theorem State.tick_drewLastStep (s : State) : s.tick.drewLastStep = s.drewLastStep := rfl
@[simp] theorem State.tick_cfg (s : State) : s.tick.cfg = s.cfg := rfl
@[simp] theorem State.tick_draws (s : State) : s.tick.draws = s.draws := rfl
@[simp] theorem State.tick_getV (s : State) (r : Nibble) : s.tick.getV r = s.getV r := rfl
@[simp] theorem State.tick_keyPressed (s : State) (k' : Nibble) : s.tick.keyPressed k' = s.keyPressed k' := rfl
@[simp] theorem State.tick_pixel (s : State) (px py : Nat) : s.tick.pixel px py = s.pixel px py := rfl
@[simp] theorem State.tick_readByte (s : State) (p : Nat) : s.tick.readByte p = s.readByte p := rfl
@[simp] theorem State.tick_memoryWf (s : State) : s.tick.memoryWf = s.memoryWf := rfl

@[simp] theorem State.keyUp_v (s : State) (k : Nibble) : (s.keyUp k).v = s.v := rfl
@[simp] theorem State.keyUp_i (s : State) (k : Nibble) : (s.keyUp k).i = s.i := rfl
@[simp] theorem State.keyUp_pc (s : State) (k : Nibble) : (s.keyUp k).pc = s.pc := rfl
@[simp] theorem State.keyUp_stack (s : State) (k : Nibble) : (s.keyUp k).stack = s.stack := rfl
@[simp] theorem State.keyUp_dt (s : State) (k : Nibble) : (s.keyUp k).dt = s.dt := rfl
@[simp] theorem State.keyUp_st (s : State) (k : Nibble) : (s.keyUp k).st = s.st := rfl
@[simp] theorem State.keyUp_fb (s : State) (k : Nibble) : (s.keyUp k).fb = s.fb := rfl
@[simp] theorem State.keyUp_mem (s : State) (k : Nibble) : (s.keyUp k).mem = s.mem := rfl
@[simp] theorem State.keyUp_mode (s : State) (k : Nibble) : (s.keyUp k).mode = s.mode := rfl
@[simp] theorem State.keyUp_drewLastStep (s : State) (k : Nibble) : (s.keyUp k).drewLastStep = s.drewLastStep := rfl
@[simp] theorem State.keyUp_cfg (s : State) (k : Nibble) : (s.keyUp k).cfg = s.cfg := rfl
@[simp] theorem State.keyUp_draws (s : State) (k : Nibble) : (s.keyUp k).draws = s.draws := rfl
@[simp] theorem State.keyUp_getV (s : State) (k : Nibble) (r : Nibble) : (s.keyUp k).getV r = s.getV r := rfl
@[simp] theorem State.keyUp_pixel (s : State) (k : Nibble) (px py : Nat) : (s.keyUp k).pixel px py = s.pixel px py := rfl
@[simp] theorem State.keyUp_readByte (s : State) (k : Nibble) (p : Nat) : (s.keyUp k).readByte p = s.readByte p := rfl
@[simp] theorem State.keyUp_memoryWf (s : State) (k : Nibble) : (s.keyUp k).memoryWf = s.memoryWf := rfl

/-- Two writes in either order touch only V. -/
theorem State.writeResultAndFlag_eq (s : State) (x : Nibble) (rf : Byte × Byte) :
    s.writeResultAndFlag x rf = { s with v := (s.writeResultAndFlag x rf).v } := by
  unfold State.writeResultAndFlag
  split <;> rfl

/-- Bytes are written to memory only. -/
theorem State.writeBytes_eq (bs : List Byte) : ∀ (s : State) (a : Nat),
    s.writeBytes a bs = { s with mem := (s.writeBytes a bs).mem } := by
  induction bs with
  | nil => intro s a; rfl
  | cons b bs ih => intro s a; exact (ih (s.writeByte a b) (a + 1))

/-- The index advance writes I only. -/
theorem State.incrementIndex_eq (s : State) (x : Nibble) :
    s.incrementIndex x = { s with i := (s.incrementIndex x).i } := by
  unfold State.incrementIndex
  split <;> rfl

@[simp] theorem State.writeResultAndFlag_i (s : State) (x : Nibble) (rf : Byte × Byte) : (s.writeResultAndFlag x rf).i = s.i := by rw [s.writeResultAndFlag_eq x rf]
@[simp] theorem State.writeResultAndFlag_pc (s : State) (x : Nibble) (rf : Byte × Byte) : (s.writeResultAndFlag x rf).pc = s.pc := by rw [s.writeResultAndFlag_eq x rf]
@[simp] theorem State.writeResultAndFlag_stack (s : State) (x : Nibble) (rf : Byte × Byte) : (s.writeResultAndFlag x rf).stack = s.stack := by rw [s.writeResultAndFlag_eq x rf]
@[simp] theorem State.writeResultAndFlag_dt (s : State) (x : Nibble) (rf : Byte × Byte) : (s.writeResultAndFlag x rf).dt = s.dt := by rw [s.writeResultAndFlag_eq x rf]
@[simp] theorem State.writeResultAndFlag_st (s : State) (x : Nibble) (rf : Byte × Byte) : (s.writeResultAndFlag x rf).st = s.st := by rw [s.writeResultAndFlag_eq x rf]
@[simp] theorem State.writeResultAndFlag_key (s : State) (x : Nibble) (rf : Byte × Byte) : (s.writeResultAndFlag x rf).key = s.key := by rw [s.writeResultAndFlag_eq x rf]
@[simp] theorem State.writeResultAndFlag_fb (s : State) (x : Nibble) (rf : Byte × Byte) : (s.writeResultAndFlag x rf).fb = s.fb := by rw [s.writeResultAndFlag_eq x rf]
@[simp] theorem State.writeResultAndFlag_mem (s : State) (x : Nibble) (rf : Byte × Byte) : (s.writeResultAndFlag x rf).mem = s.mem := by rw [s.writeResultAndFlag_eq x rf]
@[simp] theorem State.writeResultAndFlag_mode (s : State) (x : Nibble) (rf : Byte × Byte) : (s.writeResultAndFlag x rf).mode = s.mode := by rw [s.writeResultAndFlag_eq x rf]
@[simp] theorem State.writeResultAndFlag_drewLastStep (s : State) (x : Nibble) (rf : Byte × Byte) : (s.writeResultAndFlag x rf).drewLastStep = s.drewLastStep := by rw [s.writeResultAndFlag_eq x rf]
@[simp] theorem State.writeResultAndFlag_cfg (s : State) (x : Nibble) (rf : Byte × Byte) : (s.writeResultAndFlag x rf).cfg = s.cfg := by rw [s.writeResultAndFlag_eq x rf]
@[simp] theorem State.writeResultAndFlag_draws (s : State) (x : Nibble) (rf : Byte × Byte) : (s.writeResultAndFlag x rf).draws = s.draws := by rw [s.writeResultAndFlag_eq x rf]
@[simp] theorem State.writeResultAndFlag_keyPressed (s : State) (x : Nibble) (rf : Byte × Byte) (k' : Nibble) : (s.writeResultAndFlag x rf).keyPressed k' = s.keyPressed k' := by rw [s.writeResultAndFlag_eq x rf]; rfl
@[simp] theorem State.writeResultAndFlag_pixel (s : State) (x : Nibble) (rf : Byte × Byte) (px py : Nat) : (s.writeResultAndFlag x rf).pixel px py = s.pixel px py := by rw [s.writeResultAndFlag_eq x rf]; rfl
@[simp] theorem State.writeResultAndFlag_readByte (s : State) (x : Nibble) (rf : Byte × Byte) (p : Nat) : (s.writeResultAndFlag x rf).readByte p = s.readByte p := by rw [s.writeResultAndFlag_eq x rf]; rfl
@[simp] theorem State.writeResultAndFlag_memoryWf (s : State) (x : Nibble) (rf : Byte × Byte) : (s.writeResultAndFlag x rf).memoryWf = s.memoryWf := by rw [s.writeResultAndFlag_eq x rf]; rfl

@[simp] theorem State.writeBytes_v (s : State) (a : Nat) (bs : List Byte) : (s.writeBytes a bs).v = s.v := by rw [State.writeBytes_eq bs s a]
@[simp] theorem State.writeBytes_i (s : State) (a : Nat) (bs : List Byte) : (s.writeBytes a bs).i = s.i := by rw [State.writeBytes_eq bs s a]
@[simp] theorem State.writeBytes_pc (s : State) (a : Nat) (bs : List Byte) : (s.writeBytes a bs).pc = s.pc := by rw [State.writeBytes_eq bs s a]
@[simp] theorem State.writeBytes_stack (s : State) (a : Nat) (bs : List Byte) : (s.writeBytes a bs).stack = s.stack := by rw [State.writeBytes_eq bs s a]
@[simp] theorem State.writeBytes_dt (s : State) (a : Nat) (bs : List Byte) : (s.writeBytes a bs).dt = s.dt := by rw [State.writeBytes_eq bs s a]
@[simp] theorem State.writeBytes_st (s : State) (a : Nat) (bs : List Byte) : (s.writeBytes a bs).st = s.st := by rw [State.writeBytes_eq bs s a]
@[simp] theorem State.writeBytes_key (s : State) (a : Nat) (bs : List Byte) : (s.writeBytes a bs).key = s.key := by rw [State.writeBytes_eq bs s a]
@[simp] theorem State.writeBytes_fb (s : State) (a : Nat) (bs : List Byte) : (s.writeBytes a bs).fb = s.fb := by rw [State.writeBytes_eq bs s a]
@[simp] theorem State.writeBytes_mode (s : State) (a : Nat) (bs : List Byte) : (s.writeBytes a bs).mode = s.mode := by rw [State.writeBytes_eq bs s a]
@[simp] theorem State.writeBytes_drewLastStep (s : State) (a : Nat) (bs : List Byte) : (s.writeBytes a bs).drewLastStep = s.drewLastStep := by rw [State.writeBytes_eq bs s a]
@[simp] theorem State.writeBytes_cfg (s : State) (a : Nat) (bs : List Byte) : (s.writeBytes a bs).cfg = s.cfg := by rw [State.writeBytes_eq bs s a]
@[simp] theorem State.writeBytes_draws (s : State) (a : Nat) (bs : List Byte) : (s.writeBytes a bs).draws = s.draws := by rw [State.writeBytes_eq bs s a]
@[simp] theorem State.writeBytes_getV (s : State) (a : Nat) (bs : List Byte) (r : Nibble) : (s.writeBytes a bs).getV r = s.getV r := by rw [State.writeBytes_eq bs s a]; rfl
@[simp] theorem State.writeBytes_keyPressed (s : State) (a : Nat) (bs : List Byte) (k' : Nibble) : (s.writeBytes a bs).keyPressed k' = s.keyPressed k' := by rw [State.writeBytes_eq bs s a]; rfl
@[simp] theorem State.writeBytes_pixel (s : State) (a : Nat) (bs : List Byte) (px py : Nat) : (s.writeBytes a bs).pixel px py = s.pixel px py := by rw [State.writeBytes_eq bs s a]; rfl

@[simp] theorem State.incrementIndex_v (s : State) (x : Nibble) : (s.incrementIndex x).v = s.v := by rw [s.incrementIndex_eq x]
@[simp] theorem State.incrementIndex_pc (s : State) (x : Nibble) : (s.incrementIndex x).pc = s.pc := by rw [s.incrementIndex_eq x]
@[simp] theorem State.incrementIndex_stack (s : State) (x : Nibble) : (s.incrementIndex x).stack = s.stack := by rw [s.incrementIndex_eq x]
@[simp] theorem State.incrementIndex_dt (s : State) (x : Nibble) : (s.incrementIndex x).dt = s.dt := by rw [s.incrementIndex_eq x]
@[simp] theorem State.incrementIndex_st (s : State) (x : Nibble) : (s.incrementIndex x).st = s.st := by rw [s.incrementIndex_eq x]
@[simp] theorem State.incrementIndex_key (s : State) (x : Nibble) : (s.incrementIndex x).key = s.key := by rw [s.incrementIndex_eq x]
@[simp] theorem State.incrementIndex_fb (s : State) (x : Nibble) : (s.incrementIndex x).fb = s.fb := by rw [s.incrementIndex_eq x]
@[simp] theorem State.incrementIndex_mem (s : State) (x : Nibble) : (s.incrementIndex x).mem = s.mem := by rw [s.incrementIndex_eq x]
@[simp] theorem State.incrementIndex_mode (s : State) (x : Nibble) : (s.incrementIndex x).mode = s.mode := by rw [s.incrementIndex_eq x]
@[simp] theorem State.incrementIndex_drewLastStep (s : State) (x : Nibble) : (s.incrementIndex x).drewLastStep = s.drewLastStep := by rw [s.incrementIndex_eq x]
@[simp] theorem State.incrementIndex_cfg (s : State) (x : Nibble) : (s.incrementIndex x).cfg = s.cfg := by rw [s.incrementIndex_eq x]
@[simp] theorem State.incrementIndex_draws (s : State) (x : Nibble) : (s.incrementIndex x).draws = s.draws := by rw [s.incrementIndex_eq x]
@[simp] theorem State.incrementIndex_getV (s : State) (x : Nibble) (r : Nibble) : (s.incrementIndex x).getV r = s.getV r := by rw [s.incrementIndex_eq x]; rfl
@[simp] theorem State.incrementIndex_keyPressed (s : State) (x : Nibble) (k' : Nibble) : (s.incrementIndex x).keyPressed k' = s.keyPressed k' := by rw [s.incrementIndex_eq x]; rfl
@[simp] theorem State.incrementIndex_pixel (s : State) (x : Nibble) (px py : Nat) : (s.incrementIndex x).pixel px py = s.pixel px py := by rw [s.incrementIndex_eq x]; rfl
@[simp] theorem State.incrementIndex_readByte (s : State) (x : Nibble) (p : Nat) : (s.incrementIndex x).readByte p = s.readByte p := by rw [s.incrementIndex_eq x]; rfl
@[simp] theorem State.incrementIndex_memoryWf (s : State) (x : Nibble) : (s.incrementIndex x).memoryWf = s.memoryWf := by rw [s.incrementIndex_eq x]; rfl

/-- A register after a write of one register. -/
@[simp] theorem State.getV_setV (s : State) (x r : Nibble) (b : Byte) :
    (s.setV x b).getV r = if r = x then b else s.getV r := by
  unfold State.setV State.getV
  rw [Vector.getElem_set]
  by_cases h : r = x
  · simp [h]
  · have : x.toNat ≠ r.toNat := fun e => h (BitVec.eq_of_toNat_eq e.symm)
    simp [h, this]

/-- A register after a block load (R292). -/
@[simp] theorem State.getV_loadLowRegs (s : State) (x r : Nibble) :
    (s.loadLowRegs x).getV r =
      if r.toNat ≤ x.toNat then s.readByte (s.i.toNat + r.toNat) else s.getV r := by
  unfold State.loadLowRegs State.getV
  simp

/-- The V registers after `writeResultAndFlag` (R151): result in V[x], flag in VF, and for x = 15 the one
the configured order leaves. -/
theorem State.getV_writeResultAndFlag (s : State) (x r : Nibble) (rf : Byte × Byte) :
    (s.writeResultAndFlag x rf).getV r =
      if r = x ∧ r = vf then (match s.cfg.flagOrder with | .flagLast => rf.2 | .resultLast => rf.1)
      else if r = x then rf.1 else if r = vf then rf.2 else s.getV r := by
  unfold State.writeResultAndFlag
  cases s.cfg.flagOrder <;> by_cases hx : r = x <;> by_cases hf : r = vf <;> simp [hx, hf]
  all_goals (intro h1 h2; contradiction)

/-- I after the index advance (R293). -/
theorem State.incrementIndex_i (s : State) (x : Nibble) :
    (s.incrementIndex x).i =
      match s.cfg.indexIncrement with
      | .unchanged => s.i
      | .plusXPlus1 => s.i + x.setWidth 16 + 1#16 := by
  unfold State.incrementIndex
  cases s.cfg.indexIncrement <;> rfl

/-- A key after a keyUp (R326). -/
@[simp] theorem State.keyPressed_keyUp (s : State) (k r : Nibble) :
    (s.keyUp k).keyPressed r = if r = k then false else s.keyPressed r := by
  unfold State.keyUp State.keyPressed
  simp only [Vector.getElem_set]
  by_cases h : r = k
  · simp [h]
  · have : k.toNat ≠ r.toNat := fun e => h (BitVec.eq_of_toNat_eq e.symm)
    simp [h, this]

/-- The V registers are the values `getV` reads. -/
theorem State.v_ext {s t : State} (h : ∀ r, t.getV r = s.getV r) : t.v = s.v := by
  apply Vector.ext
  intro k hk
  have := h (BitVec.ofNat 4 k)
  simpa [State.getV, Nat.mod_eq_of_lt hk] using this

end Sys2Proof.Machine
end

