-- ==== Sys2Proof/Laws/Memory.lean ====
section
/-! SUPPORT. Memory: what a read gives after a write, and that every operation keeps the canonical form. -/

namespace Sys2Proof.Machine

/-- The two parts of the canonical form. -/
theorem Memory.wf_iff (blank : Nat → Byte) (m : Memory) :
    Memory.wf blank m = true ↔
      (m.Pairwise fun c d => c.1 < d.1) ∧ ∀ c ∈ m, c.1 < memorySize ∧ c.2 ≠ blank c.1 := by
  simp [Memory.wf]

/-- The empty list is the canonical form of a memory never written. -/
@[simp] theorem Memory.wf_nil (blank : Nat → Byte) : Memory.wf blank [] = true := rfl

/-- The canonical form of a nonempty list, one entry at a time. -/
theorem Memory.wf_cons (blank : Nat → Byte) (c : Host.Cell) (m : Memory) :
    Memory.wf blank (c :: m) = true ↔
      ((∀ d ∈ m, c.1 < d.1) ∧ c.1 < memorySize ∧ c.2 ≠ blank c.1) ∧ Memory.wf blank m = true := by
  simp only [Memory.wf_iff, List.pairwise_cons, List.forall_mem_cons]
  tauto

/-- An address below every listed one reads as its blank value. -/
theorem Memory.read_of_lt (blank : Nat → Byte) (m : Memory) (a : Nat) (h : ∀ c ∈ m, a < c.1) :
    Memory.read blank m a = blank a := by
  induction m with
  | nil => rfl
  | cons c m ih =>
    have hc := h c (by simp)
    have hne : c.1 ≠ a := by omega
    simp only [Memory.read, hne, if_false]
    exact ih fun d hd => h d (by simp [hd])

/-- Every entry after a write is the written one or an old one. -/
theorem Memory.mem_write (blank : Nat → Byte) (m : Memory) (a : Nat) (b : Byte) (d : Host.Cell)
    (h : d ∈ Memory.write blank m a b) : (d = (a, b) ∧ b ≠ blank a) ∨ d ∈ m := by
  induction m with
  | nil =>
    simp only [Memory.write] at h
    split at h
    · simp at h
    · simp_all
  | cons c m ih =>
    simp only [Memory.write] at h
    split_ifs at h <;> simp only [List.mem_cons] at h ⊢
    · exact .inr h
    · exact h.imp (fun e => ⟨e, ‹_›⟩) id
    · exact .inr (.inr h)
    · exact h.imp (fun e => ⟨e, ‹_›⟩) .inr
    · exact h.elim (fun e => .inr (.inl e)) fun e => (ih e).imp id .inr

/-- A write keeps the canonical form. -/
theorem Memory.write_wf (blank : Nat → Byte) (m : Memory) (a : Nat) (b : Byte)
    (hm : Memory.wf blank m = true) (ha : a < memorySize) :
    Memory.wf blank (Memory.write blank m a b) = true := by
  induction m with
  | nil =>
    simp only [Memory.write]
    split <;> simp_all [Memory.wf_cons]
  | cons c m ih =>
    obtain ⟨⟨hlt, hsize, hne⟩, hm'⟩ := (Memory.wf_cons blank c m).mp hm
    simp only [Memory.write]
    split_ifs with h1 h2 h3 h4
    · exact hm
    · refine (Memory.wf_cons _ _ _).mpr ⟨⟨?_, ha, h2⟩, hm⟩
      intro d hd
      rcases List.mem_cons.mp hd with rfl | hd
      · exact h1
      · exact Nat.lt_trans h1 (hlt d hd)
    · exact hm'
    · exact (Memory.wf_cons _ _ _).mpr ⟨⟨fun d hd => h3 ▸ hlt d hd, ha, h4⟩, hm'⟩
    · refine (Memory.wf_cons _ _ _).mpr ⟨⟨?_, hsize, hne⟩, ih hm'⟩
      intro d hd
      rcases Memory.mem_write blank m a b d hd with ⟨rfl, -⟩ | hd
      · show c.1 < a
        omega
      · exact hlt d hd

/-- A read after a write of a canonical memory. -/
theorem Memory.read_write (blank : Nat → Byte) (m : Memory) (a p : Nat) (b : Byte)
    (hm : Memory.wf blank m = true) :
    Memory.read blank (Memory.write blank m a b) p = if p = a then b else Memory.read blank m p := by
  induction m with
  | nil =>
    by_cases hp : p = a
    · by_cases hb : b = blank a <;> simp [Memory.write, Memory.read, hb, hp]
    · by_cases hb : b = blank a <;> simp [Memory.write, Memory.read, hb, hp, Ne.symm hp]
  | cons c m ih =>
    obtain ⟨⟨hlt, -, -⟩, hm'⟩ := (Memory.wf_cons blank c m).mp hm
    rcases Nat.lt_trichotomy a c.1 with h | h | h
    · have below : Memory.read blank (c :: m) a = blank a :=
        Memory.read_of_lt blank (c :: m) a fun d hd => by
          rcases List.mem_cons.mp hd with rfl | hd
          · exact h
          · exact Nat.lt_trans h (hlt d hd)
      by_cases hb : b = blank a <;> by_cases hp : p = a
      · simp [Memory.write, h, hb, hp, below]
      · simp [Memory.write, h, hb, hp]
      · simp [Memory.write, h, hb, hp, Memory.read]
      · simp [Memory.write, h, hb, hp, Memory.read, Ne.symm hp]
    · have below : Memory.read blank m a = blank a :=
        Memory.read_of_lt blank m a fun d hd => h ▸ hlt d hd
      by_cases hb : b = blank a <;> by_cases hp : p = a
      · simp [Memory.write, ← h, hb, hp, below]
      · simp [Memory.write, ← h, hb, hp, Memory.read, Ne.symm hp]
      · simp [Memory.write, ← h, hb, hp, Memory.read]
      · simp [Memory.write, ← h, hb, hp, Memory.read, Ne.symm hp]
    · have h1 : ¬a < c.1 := by omega
      have h2 : a ≠ c.1 := by omega
      by_cases hp : p = c.1
      · have h3 : p ≠ a := by omega
        simp [Memory.write, Memory.read, h1, h2, hp, Ne.symm h2]
      · simp [Memory.write, Memory.read, h1, h2, Ne.symm hp, ih hm']

/-- Writes to different addresses leave each other's reads alone, in any memory. -/
theorem Memory.read_write_ne (blank : Nat → Byte) (m : Memory) (a p : Nat) (b : Byte) (h : p ≠ a) :
    Memory.read blank (Memory.write blank m a b) p = Memory.read blank m p := by
  induction m with
  | nil => by_cases hb : b = blank a <;> simp [Memory.write, Memory.read, hb, Ne.symm h]
  | cons c m ih =>
    simp only [Memory.write]
    split_ifs with h1 h2 h3 h4
    · rfl
    · simp [Memory.read, Ne.symm h]
    · simp [Memory.read, ← h3, Ne.symm h]
    · simp [Memory.read, ← h3, Ne.symm h]
    · simp [Memory.read, ih]

/-! The same for a state. -/

/-- A byte after a byte write. -/
theorem State.readByte_writeByte (s : State) (a p : Nat) (b : Byte) (hm : s.memoryWf = true) :
    (s.writeByte a b).readByte p = if p = a then b else s.readByte p :=
  Memory.read_write _ _ _ _ _ hm

/-- A byte write leaves every other byte. -/
theorem State.readByte_writeByte_ne (s : State) (a p : Nat) (b : Byte) (h : p ≠ a) :
    (s.writeByte a b).readByte p = s.readByte p :=
  Memory.read_write_ne _ _ _ _ _ h

/-- A byte write in the address space keeps the canonical form. -/
theorem State.memoryWf_writeByte (s : State) (a : Nat) (b : Byte) (hm : s.memoryWf = true)
    (ha : a < memorySize) : (s.writeByte a b).memoryWf = true :=
  Memory.write_wf _ _ _ _ hm ha

/-- Writing bytes in the address space keeps the canonical form. -/
theorem State.memoryWf_writeBytes (bs : List Byte) : ∀ (s : State) (a : Nat), s.memoryWf = true →
    a + bs.length ≤ memorySize → (s.writeBytes a bs).memoryWf = true := by
  induction bs with
  | nil => intro s a hm _; exact hm
  | cons b bs ih =>
    intro s a hm ha
    rw [List.length_cons] at ha
    exact ih _ _ (s.memoryWf_writeByte a b hm (by omega)) (by omega)

/-- Bytes outside the written range are left, in any memory. -/
theorem State.readByte_writeBytes_outside (bs : List Byte) : ∀ (s : State) (a p : Nat),
    p < a ∨ a + bs.length ≤ p → (s.writeBytes a bs).readByte p = s.readByte p := by
  induction bs with
  | nil => intro s a p _; rfl
  | cons b bs ih =>
    intro s a p h
    rw [List.length_cons] at h
    rw [State.writeBytes, ih _ _ _ (by omega)]
    exact s.readByte_writeByte_ne a p b (by omega)

/-- Everything `writeBytes` does to reads: the k-th byte stands at address a + k, every other byte is as
before. -/
theorem State.readByte_writeBytes (bs : List Byte) : ∀ (s : State) (a p : Nat), s.memoryWf = true →
    a + bs.length ≤ memorySize →
    (s.writeBytes a bs).readByte p =
      if a ≤ p ∧ p < a + bs.length then bs.getD (p - a) 0#8 else s.readByte p := by
  induction bs with
  | nil => intro s a p _ _; simp [State.writeBytes]
  | cons b bs ih =>
    intro s a p hm ha
    rw [List.length_cons] at ha
    rw [State.writeBytes, ih _ _ _ (s.memoryWf_writeByte a b hm (by omega)) (by omega),
      s.readByte_writeByte a p b hm, List.length_cons]
    rcases Nat.lt_trichotomy p a with h | h | h
    · have h1 : ¬(a + 1 ≤ p ∧ p < a + 1 + bs.length) := by omega
      have h2 : ¬(a ≤ p ∧ p < a + (bs.length + 1)) := by omega
      simp only [h1, h2, if_false, Nat.ne_of_lt h]
    · simp [h]
    · obtain ⟨k, rfl⟩ : ∃ k, p = a + 1 + k := ⟨p - (a + 1), by omega⟩
      have e : a + 1 + k - a = k + 1 := by omega
      have e' : a + 1 + k - (a + 1) = k := by omega
      by_cases h3 : k < bs.length
      · have h1 : a + 1 ≤ a + 1 + k ∧ a + 1 + k < a + 1 + bs.length := by omega
        have h2 : a ≤ a + 1 + k ∧ a + 1 + k < a + (bs.length + 1) := by omega
        simp only [h1, h2, if_true, e, e', List.getD_cons_succ, and_self]
      · have h1 : ¬(a + 1 ≤ a + 1 + k ∧ a + 1 + k < a + 1 + bs.length) := by omega
        have h2 : ¬(a ≤ a + 1 + k ∧ a + 1 + k < a + (bs.length + 1)) := by omega
        have h4 : a + 1 + k ≠ a := by omega
        simp only [h1, h2, h4, if_false]

/-! Addresses and bounds (R64). -/

/-- The addresses of an access are base, …, base + count − 1. -/
@[simp] theorem mem_addresses (base : Word) (count a : Nat) :
    a ∈ addresses base count ↔ base.toNat ≤ a ∧ a < base.toNat + count := by
  simp only [addresses, List.mem_map, List.mem_range]
  constructor
  · rintro ⟨k, hk, rfl⟩
    omega
  · rintro ⟨h1, h2⟩
    exact ⟨a - base.toNat, by omega, by omega⟩

/-- `checkRange` passes exactly when no byte is accessed or the last one is in bounds. -/
theorem rangeOk_iff (base : Word) (count : Nat) :
    rangeOk base count = true ↔ count = 0 ∨ base.toNat + count ≤ 4096 := by
  simp only [rangeOk, List.all_eq_true, mem_addresses, inBounds, decide_eq_true_eq]
  constructor
  · intro h
    by_cases hc : count = 0
    · exact .inl hc
    · have := h (base.toNat + count - 1) (by omega)
      omega
  · rintro h a ⟨h1, h2⟩
    omega

/-- `readBytes` gives `count` bytes. -/
@[simp] theorem State.length_readBytes (s : State) (base : Word) (count : Nat) :
    (s.readBytes base count).length = count := by
  simp [State.readBytes, addresses]

/-- The k-th byte `readBytes` gives is the one at base + k. -/
@[simp] theorem State.getElem_readBytes (s : State) (base : Word) (count k : Nat)
    (h : k < (s.readBytes base count).length) :
    (s.readBytes base count)[k] = s.readByte (base.toNat + k) := by
  simp [State.readBytes, addresses]

end Sys2Proof.Machine
end

