-- ==== Sys2Proof/Laws/Display.lean ====
section
/-! SUPPORT. The framebuffer: one pixel after one write, and everything the sprite loop of R252 does. The
loop's points are distinct pixels (R253), so each is changed at most once. -/

namespace Sys2Proof.Machine

/-- A pixel depends on the wrapped coordinates only (R250). -/
theorem Framebuffer.pixel_congr (fb : Framebuffer) {x y x' y' : Nat} (hx : x % 64 = x' % 64)
    (hy : y % 32 = y' % 32) : fb.pixel x y = fb.pixel x' y' := by
  simp only [Framebuffer.pixel, hx, hy]

/-- One pixel of a cleared framebuffer. -/
@[simp] theorem Framebuffer.pixel_cleared (x y : Nat) : Framebuffer.cleared.pixel x y = false := by
  simp [Framebuffer.cleared, Framebuffer.pixel]

/-- One pixel after `xorPixel`. -/
theorem Framebuffer.pixel_xorPixel (fb : Framebuffer) (x y px py : Nat) (bit : Bool) :
    (fb.xorPixel px py bit).pixel x y =
      (fb.pixel x y ^^ (bit && decide (px % 64 = x % 64 ∧ py % 32 = y % 32))) := by
  cases bit with
  | false => simp [Framebuffer.xorPixel]
  | true =>
    by_cases hy : py % 32 = y % 32
    · have hx : x % 64 < 64 := Nat.mod_lt _ (by omega)
      by_cases hx' : px % 64 = x % 64
      · simp [Framebuffer.xorPixel, Framebuffer.pixel, hy, hx', hx]
      · have : ¬(x % 64 - px % 64 = 0 ∧ px % 64 ≤ x % 64) := by omega
        by_cases hlt : x % 64 < px % 64
        · simp [Framebuffer.xorPixel, Framebuffer.pixel, hy, hx', hlt]
        · have hne : x % 64 - px % 64 ≠ 0 := by omega
          simp [Framebuffer.xorPixel, Framebuffer.pixel, hy, hx', hx, hlt, hne]
    · simp [Framebuffer.xorPixel, Framebuffer.pixel, hy]

/-- A point of the sprite loop: a coordinate pair and a sprite bit. -/
abbrev Point := Nat × Nat × Bool

/-- Two points hit the same pixel. -/
def Point.same (p q : Point) : Prop := p.1 % 64 = q.1 % 64 ∧ p.2.1 % 32 = q.2.1 % 32

/-- The points of R252's loop, in its order. -/
def spritePoints (cx cy : Nat) : List Byte → List Point
  | [] => []
  | row :: rows =>
    (List.range 8).map (fun c => (cx + c, cy, spriteBit row c)) ++ spritePoints cx (cy + 1) rows

/-- The sprite loop is one pass over its points. -/
theorem drawRows_eq_foldl (cx : Nat) (rows : List Byte) : ∀ (cy : Nat) (acc : Framebuffer × Bool),
    drawRows cx cy rows acc =
      (spritePoints cx cy rows).foldl (fun acc p => drawPixel p.1 p.2.1 p.2.2 acc) acc := by
  induction rows with
  | nil => intro cy acc; rfl
  | cons row rows ih =>
    intro cy acc
    rw [drawRows, ih, spritePoints, List.foldl_append, List.foldl_map, drawRow]

/-- The points of the loop, by row and column. -/
theorem mem_spritePoints (cx : Nat) (rows : List Byte) : ∀ (cy : Nat) (p : Point),
    p ∈ spritePoints cx cy rows ↔
      ∃ r, r < rows.length ∧ ∃ c, c < 8 ∧ p = (cx + c, cy + r, spriteBit (rows.getD r 0#8) c) := by
  induction rows with
  | nil => intro cy p; simp [spritePoints]
  | cons row rows ih =>
    intro cy p
    simp only [spritePoints, List.mem_append, List.mem_map, List.mem_range, ih, List.length_cons]
    constructor
    · rintro (⟨c, hc, rfl⟩ | ⟨r, hr, c, hc, rfl⟩)
      · exact ⟨0, by omega, c, hc, rfl⟩
      · exact ⟨r + 1, by omega, c, hc, by rw [List.getD_cons_succ, Nat.add_right_comm, Nat.add_assoc cy]⟩
    · rintro ⟨r, hr, c, hc, rfl⟩
      cases r with
      | zero => exact .inl ⟨c, hc, rfl⟩
      | succ r =>
        exact .inr ⟨r, by omega, c, hc, by
          rw [List.getD_cons_succ, Nat.add_right_comm cy 1 r, Nat.add_assoc cy]⟩

/-- R253: no two points of a sprite of at most 32 rows hit the same pixel. -/
theorem spritePoints_distinct (cx : Nat) (rows : List Byte) : ∀ cy : Nat, rows.length ≤ 32 →
    (spritePoints cx cy rows).Pairwise fun p q => ¬p.same q := by
  induction rows with
  | nil => intro cy _; exact List.Pairwise.nil
  | cons row rows ih =>
    intro cy h
    rw [List.length_cons] at h
    rw [spritePoints, List.pairwise_append]
    refine ⟨?_, ih (cy + 1) (by omega), ?_⟩
    · rw [List.pairwise_map]
      refine List.Pairwise.imp_of_mem ?_ List.pairwise_lt_range
      intro a b ha hb hlt hsame
      have h1 : (cx + a) % 64 = (cx + b) % 64 := hsame.1
      rw [List.mem_range] at ha hb
      omega
    · intro p hp q hq hsame
      obtain ⟨c, -, rfl⟩ := List.mem_map.mp hp
      obtain ⟨r, hr, c', -, rfl⟩ := (mem_spritePoints cx rows (cy + 1) q).mp hq
      have h2 : cy % 32 = (cy + 1 + r) % 32 := hsame.2
      omega

/-- One pass over points of distinct pixels: a pixel is flipped exactly when a point with a set bit hits it,
and the collision flag is raised exactly when a point with a set bit hits a set pixel. -/
theorem foldl_drawPixel (ps : List Point) : ∀ (fb : Framebuffer) (hit : Bool),
    (ps.Pairwise fun p q => ¬p.same q) →
    let d := ps.foldl (fun acc p => drawPixel p.1 p.2.1 p.2.2 acc) (fb, hit)
    (∀ x y, d.1.pixel x y =
      (fb.pixel x y ^^ decide (∃ p ∈ ps, p.2.2 = true ∧ p.1 % 64 = x % 64 ∧ p.2.1 % 32 = y % 32))) ∧
    (d.2 = true ↔ hit = true ∨ ∃ p ∈ ps, p.2.2 = true ∧ fb.pixel p.1 p.2.1 = true) := by
  induction ps with
  | nil => intro fb hit _; simp
  | cons p ps ih =>
    intro fb hit hd
    obtain ⟨hp, hps⟩ := List.pairwise_cons.mp hd
    obtain ⟨ih1, ih2⟩ := ih (fb.xorPixel p.1 p.2.1 p.2.2) (hit || (p.2.2 && fb.pixel p.1 p.2.1)) hps
    have later : ∀ q ∈ ps, (fb.xorPixel p.1 p.2.1 p.2.2).pixel q.1 q.2.1 = fb.pixel q.1 q.2.1 := by
      intro q hq
      have hn : ¬(p.1 % 64 = q.1 % 64 ∧ p.2.1 % 32 = q.2.1 % 32) := hp q hq
      rw [Framebuffer.pixel_xorPixel, decide_eq_false hn, Bool.and_false, Bool.xor_false]
    refine ⟨fun x y => ?_, ?_⟩
    · have step := ih1 x y
      simp only [List.foldl_cons, drawPixel] at step ⊢
      rw [step, Framebuffer.pixel_xorPixel]
      by_cases hx : p.1 % 64 = x % 64 ∧ p.2.1 % 32 = y % 32
      · have none : ¬∃ q ∈ ps, q.2.2 = true ∧ q.1 % 64 = x % 64 ∧ q.2.1 % 32 = y % 32 := by
          rintro ⟨q, hq, -, h1, h2⟩
          exact hp q hq ⟨hx.1.trans h1.symm, hx.2.trans h2.symm⟩
        have e : (∃ q ∈ p :: ps, q.2.2 = true ∧ q.1 % 64 = x % 64 ∧ q.2.1 % 32 = y % 32) ↔
            p.2.2 = true := by
          simp only [List.mem_cons, exists_eq_or_imp]
          exact ⟨fun h => h.elim (·.1) fun h => absurd h none, fun h => .inl ⟨h, hx⟩⟩
        rw [decide_eq_true hx, decide_eq_false none, Bool.xor_false, Bool.and_true]
        congr 1
        exact Bool.eq_iff_iff.mpr (e.symm.trans decide_eq_true_iff.symm)
      · have e : (∃ q ∈ p :: ps, q.2.2 = true ∧ q.1 % 64 = x % 64 ∧ q.2.1 % 32 = y % 32) ↔
            ∃ q ∈ ps, q.2.2 = true ∧ q.1 % 64 = x % 64 ∧ q.2.1 % 32 = y % 32 := by
          simp only [List.mem_cons, exists_eq_or_imp]
          exact ⟨fun h => h.elim (fun h => absurd h.2 hx) id, .inr⟩
        rw [decide_eq_false hx, Bool.and_false, Bool.xor_false, decide_eq_decide.mpr e]
    · simp only [List.foldl_cons, drawPixel] at ih2 ⊢
      simp only [List.mem_cons, exists_eq_or_imp]
      rw [ih2, Bool.or_eq_true, Bool.and_eq_true, or_assoc]
      refine or_congr_right (or_congr_right ?_)
      exact exists_congr fun q => and_congr_right fun hq => by rw [later q hq]

/-- A pixel is covered exactly when a point with a set bit hits it. -/
theorem covers_iff (cx cy : Nat) (rows : List Byte) (x y : Nat) :
    covers cx cy rows x y ↔
      ∃ p ∈ spritePoints cx cy rows, p.2.2 = true ∧ p.1 % 64 = x % 64 ∧ p.2.1 % 32 = y % 32 := by
  constructor
  · rintro ⟨r, hr, c, hc, hb⟩
    exact ⟨_, (mem_spritePoints cx rows cy _).mpr ⟨r, hr, c, hc, rfl⟩, hb⟩
  · rintro ⟨p, hp, hb⟩
    obtain ⟨r, hr, c, hc, rfl⟩ := (mem_spritePoints cx rows cy p).mp hp
    exact ⟨r, hr, c, hc, hb⟩

/-- Everything the sprite loop of R252 does, for at most 32 rows: a covered pixel is flipped, every other
pixel is as before, and a collision is a covered pixel that was set. -/
theorem drawRows_spec (cx cy : Nat) (rows : List Byte) (fb : Framebuffer) (h : rows.length ≤ 32) :
    (∀ x y, covers cx cy rows x y →
      (drawRows cx cy rows (fb, false)).1.pixel x y = !fb.pixel x y) ∧
    (∀ x y, ¬covers cx cy rows x y →
      (drawRows cx cy rows (fb, false)).1.pixel x y = fb.pixel x y) ∧
    ((drawRows cx cy rows (fb, false)).2 = true ↔
      ∃ x y, covers cx cy rows x y ∧ fb.pixel x y = true) := by
  rw [drawRows_eq_foldl]
  obtain ⟨h1, h2⟩ := foldl_drawPixel (spritePoints cx cy rows) fb false (spritePoints_distinct cx rows cy h)
  refine ⟨fun x y hc => ?_, fun x y hc => ?_, ?_⟩
  · rw [h1 x y, decide_eq_true ((covers_iff cx cy rows x y).mp hc), Bool.xor_true]
  · rw [h1 x y, decide_eq_false fun e => hc ((covers_iff cx cy rows x y).mpr e), Bool.xor_false]
  · rw [h2]
    constructor
    · rintro (h | ⟨p, hp, hb, hit⟩)
      · cases h
      · exact ⟨p.1, p.2.1, (covers_iff ..).mpr ⟨p, hp, hb, rfl, rfl⟩, hit⟩
    · rintro ⟨x, y, hc, hit⟩
      obtain ⟨p, hp, hb, hx, hy⟩ := (covers_iff ..).mp hc
      exact .inr ⟨p, hp, hb, by rw [Framebuffer.pixel_congr fb hx hy]; exact hit⟩

/-- The flipping of covered pixels is its own inverse: the loop run twice gives every pixel back. -/
theorem drawRows_twice (cx cy : Nat) (rows : List Byte) (fb : Framebuffer) (h : rows.length ≤ 32)
    (x y : Nat) :
    (drawRows cx cy rows ((drawRows cx cy rows (fb, false)).1, false)).1.pixel x y = fb.pixel x y := by
  obtain ⟨f1, k1, -⟩ := drawRows_spec cx cy rows fb h
  obtain ⟨f2, k2, -⟩ := drawRows_spec cx cy rows (drawRows cx cy rows (fb, false)).1 h
  by_cases hc : covers cx cy rows x y
  · rw [f2 x y hc, f1 x y hc, Bool.not_not]
  · rw [k2 x y hc, k1 x y hc]

end Sys2Proof.Machine
end

