-- ==== Sys2Proof/Laws/Machine.lean ====
section
/-! SUPPORT. What each shared operation of the meanings can do, the inversion of the fetch and of the step,
and the word a program placement leaves for the fetch. -/

namespace Sys2Proof.Machine

/-! The call stack. -/

theorem State.push_of_lt (s : State) (a : Word) (h : s.sp < 16) :
    s.push a = some { s with stack := a :: s.stack } := by
  have h' : s.stack.length < stackCapacity := h
  simp [State.push, h']

theorem State.push_of_ge (s : State) (a : Word) (h : 16 ≤ s.sp) : s.push a = none := by
  have h' : ¬s.stack.length < stackCapacity := Nat.not_lt.mpr h
  simp [State.push, h']

/-- Everything a call does (R183). -/
theorem callTo_eq (op : Word) (nnn : Addr) (s : State) :
    callTo op nnn s =
      if s.sp < 16 then .next { s with stack := (s.pc + 2#16) :: s.stack, pc := nnn.setWidth 16 }
      else raise .stackOverflow (some op) s := by
  by_cases h : s.sp < 16
  · simp only [callTo, s.push_of_lt _ h, h, if_true]
    rfl
  · simp only [callTo, s.push_of_ge _ (Nat.le_of_not_lt h), h, if_false]

/-- Everything a return does (R180). -/
theorem execRet_eq (s : State) :
    execRet s =
      match s.stack with
      | [] => raise .stackUnderflow (some 0x00EE#16) s
      | a :: rest => .next { s with stack := rest, pc := a } := by
  obtain ⟨v, i, pc, stack⟩ := s
  cases stack <;> rfl

/-- S[SP − 1] is the head of the list of live entries. -/
theorem State.stackEntry_last (s : State) (a : Word) (rest : List Word) (h : s.stack = a :: rest) :
    s.stackEntry (s.sp - 1) = some a := by
  simp [State.stackEntry, State.sp, h]

/-- The entries below the top are those of the popped stack. -/
theorem getElem?_reverse_cons_of_lt (a : Word) (rest : List Word) (k : Nat) (h : k < rest.length) :
    (a :: rest).reverse[k]? = rest.reverse[k]? := by
  rw [List.reverse_cons, List.getElem?_append_left (by simpa using h)]

/-- The entry a push adds. -/
theorem getElem?_reverse_cons_length (a : Word) (rest : List Word) :
    (a :: rest).reverse[rest.length]? = some a := by
  rw [List.reverse_cons, List.getElem?_append_right (by simp)]
  simp

/-! Keys (R276). -/

theorem keyIndex_of_le (b : Byte) (h : b.toNat ≤ 15) : keyIndex b = some (b.setWidth 4) := by
  simp [keyIndex, h]

theorem keyIndex_of_gt (b : Byte) (h : 15 < b.toNat) : keyIndex b = none := by
  have : ¬b.toNat ≤ 15 := by omega
  simp [keyIndex, this]

/-- Everything a key skip does (R273, R274, R276). -/
theorem skipOnKey_eq (pressed : Bool) (x : Nibble) (s : State) :
    skipOnKey pressed x s =
      if (s.getV x).toNat ≤ 15 then
        .next (s.skipIf (s.keyPressed ((s.getV x).setWidth 4) == pressed))
      else unmodelled .keyIndexRange s := by
  by_cases h : (s.getV x).toNat ≤ 15
  · simp [skipOnKey, keyIndex_of_le _ h, h]
  · simp [skipOnKey, keyIndex_of_gt _ (Nat.lt_of_not_le h), h]

/-! Fetch and step. -/

theorem State.fetch_eq_instr (s : State) (i : Instr) :
    s.fetch = .instr i ↔ s.pc.toNat ≤ 0xFFE ∧ decodeTag s.fetchOpcode = some i := by
  unfold State.fetch maxFetch decode
  by_cases h : s.pc.toNat ≤ 0xFFE
  · cases decodeTag s.fetchOpcode <;> simp [h]
  · simp [h]

theorem State.fetch_eq_unknown (s : State) (op : Word) :
    s.fetch = .unknown op ↔ s.pc.toNat ≤ 0xFFE ∧ decodeTag op = none ∧ op = s.fetchOpcode := by
  unfold State.fetch maxFetch decode
  by_cases h : s.pc.toNat ≤ 0xFFE
  · cases hd : decodeTag s.fetchOpcode
    · simp only [h, if_true, Fetched.unknown.injEq, true_and]
      exact ⟨fun e => ⟨e ▸ hd, e.symm⟩, fun e => e.2.symm⟩
    · simp only [h, if_true, true_and, reduceCtorEq, false_iff, not_and]
      rintro hn rfl
      simp [hd] at hn
  · simp [h]

theorem State.fetch_eq_outOfRange (s : State) : s.fetch = .outOfRange ↔ 0xFFE < s.pc.toNat := by
  unfold State.fetch maxFetch
  by_cases h : s.pc.toNat ≤ 0xFFE
  · cases decode s.fetchOpcode <;> simp [h]
  · simp only [h, if_false, true_iff]
    omega

theorem step_instr (s : State) (i : Instr) (hm : s.mode = .running) (hf : s.fetch = .instr i) :
    step s = exec i s.beginStep := by
  simp [step, hm, hf]

theorem step_unknown (s : State) (op : Word) (hm : s.mode = .running) (hf : s.fetch = .unknown op) :
    step s = raise .unknownOpcode (some op) s.beginStep := by
  simp [step, hm, hf]

theorem step_outOfRange (s : State) (hm : s.mode = .running) (hf : s.fetch = .outOfRange) :
    step s = raise .outOfBounds none s.beginStep := by
  simp [step, hm, hf]

theorem step_idle (s : State) (hm : s.mode ≠ .running) : step s = .next s := by
  unfold step
  cases h : s.mode <;> simp_all

/-- The inversion of a step: one of four things happened (R140, R152). -/
theorem step_cases {s t : State} (h : step s = .next t) :
    (s.mode ≠ .running ∧ t = s) ∨
    (s.mode = .running ∧ s.fetch = .outOfRange ∧ raise .outOfBounds none s.beginStep = .next t) ∨
    (s.mode = .running ∧ ∃ op, s.fetch = .unknown op ∧
      raise .unknownOpcode (some op) s.beginStep = .next t) ∨
    (s.mode = .running ∧ ∃ i, s.fetch = .instr i ∧ exec i s.beginStep = .next t) := by
  by_cases hm : s.mode = .running
  · cases hf : s.fetch with
    | outOfRange => exact .inr (.inl ⟨hm, rfl, by rw [← step_outOfRange s hm hf, h]⟩)
    | unknown op => exact .inr (.inr (.inl ⟨hm, op, rfl, by rw [← step_unknown s op hm hf, h]⟩))
    | instr i => exact .inr (.inr (.inr ⟨hm, i, rfl, by rw [← step_instr s i hm hf, h]⟩))
  · refine .inl ⟨hm, ?_⟩
    rw [step_idle s hm] at h
    exact (Host.Outcome.next.inj h).symm

/-! Placing a word for the fetch. -/

/-- The word `placeOpcode` puts at PC is the one the next fetch forms (R65, R144). -/
theorem State.fetchOpcode_placeOpcode (s : State) (op : Word) (hm : s.memoryWf = true)
    (hpc : s.pc.toNat ≤ 0xFFE) : (s.placeOpcode op).fetchOpcode = op := by
  have hlen : (bytesOfOpcode op).length = 2 := rfl
  have hroom : s.pc.toNat + (bytesOfOpcode op).length ≤ memorySize := by
    simp only [hlen, memorySize]
    omega
  unfold State.fetchOpcode State.placeOpcode
  rw [State.writeBytes_pc, State.readByte_writeBytes _ _ _ _ hm hroom,
    State.readByte_writeBytes _ _ _ _ hm hroom]
  simp only [hlen]
  have e : s.pc.toNat + 1 - s.pc.toNat = 1 := by omega
  simp only [Nat.le_refl, true_and, Nat.sub_self, e, Nat.le_succ,
    show s.pc.toNat < s.pc.toNat + 2 by omega, show s.pc.toNat + 1 < s.pc.toNat + 2 by omega, if_true]
  exact opcodeOfBytes_slices op

end Sys2Proof.Machine
end

