-- ==== Sys2Proof/Laws/PerInstr.lean ====
section
/-! SUPPORT. Per instruction: every word the encoder writes carries the fixed bits of its row of
spec/opcode_table.json (its mask and match). -/

namespace Sys2Proof.Laws.FixedBits

/-- The row's mask. -/
def tableMask : Instr → Word
  | .cls => 0xFFFF#16
  | .ret => 0xFFFF#16
  | .sys _ => 0xF000#16
  | .jp _ => 0xF000#16
  | .call _ => 0xF000#16
  | .seImm _ _ => 0xF000#16
  | .sneImm _ _ => 0xF000#16
  | .seReg _ _ => 0xF00F#16
  | .ldImm _ _ => 0xF000#16
  | .addImm _ _ => 0xF000#16
  | .ldReg _ _ => 0xF00F#16
  | .or _ _ => 0xF00F#16
  | .and _ _ => 0xF00F#16
  | .xor _ _ => 0xF00F#16
  | .addReg _ _ => 0xF00F#16
  | .sub _ _ => 0xF00F#16
  | .shr _ _ => 0xF00F#16
  | .subn _ _ => 0xF00F#16
  | .shl _ _ => 0xF00F#16
  | .sneReg _ _ => 0xF00F#16
  | .ldI _ => 0xF000#16
  | .jpV0 _ => 0xF000#16
  | .rnd _ _ => 0xF000#16
  | .drw _ _ _ => 0xF000#16
  | .skp _ => 0xF0FF#16
  | .sknp _ => 0xF0FF#16
  | .ldVxDt _ => 0xF0FF#16
  | .ldVxK _ => 0xF0FF#16
  | .ldDtVx _ => 0xF0FF#16
  | .ldStVx _ => 0xF0FF#16
  | .addIVx _ => 0xF0FF#16
  | .ldFVx _ => 0xF0FF#16
  | .ldBVx _ => 0xF0FF#16
  | .ldMemVx _ => 0xF0FF#16
  | .ldVxMem _ => 0xF0FF#16

/-- The row's match. -/
def tableMatch : Instr → Word
  | .cls => 0x00E0#16
  | .ret => 0x00EE#16
  | .sys _ => 0x0000#16
  | .jp _ => 0x1000#16
  | .call _ => 0x2000#16
  | .seImm _ _ => 0x3000#16
  | .sneImm _ _ => 0x4000#16
  | .seReg _ _ => 0x5000#16
  | .ldImm _ _ => 0x6000#16
  | .addImm _ _ => 0x7000#16
  | .ldReg _ _ => 0x8000#16
  | .or _ _ => 0x8001#16
  | .and _ _ => 0x8002#16
  | .xor _ _ => 0x8003#16
  | .addReg _ _ => 0x8004#16
  | .sub _ _ => 0x8005#16
  | .shr _ _ => 0x8006#16
  | .subn _ _ => 0x8007#16
  | .shl _ _ => 0x800E#16
  | .sneReg _ _ => 0x9000#16
  | .ldI _ => 0xA000#16
  | .jpV0 _ => 0xB000#16
  | .rnd _ _ => 0xC000#16
  | .drw _ _ _ => 0xD000#16
  | .skp _ => 0xE09E#16
  | .sknp _ => 0xE0A1#16
  | .ldVxDt _ => 0xF007#16
  | .ldVxK _ => 0xF00A#16
  | .ldDtVx _ => 0xF015#16
  | .ldStVx _ => 0xF018#16
  | .addIVx _ => 0xF01E#16
  | .ldFVx _ => 0xF029#16
  | .ldBVx _ => 0xF033#16
  | .ldMemVx _ => 0xF055#16
  | .ldVxMem _ => 0xF065#16

/-- The fixed bits of the row stand in the instruction's word. -/
def Statement (i : Instr) : Prop := encode i &&& tableMask i = tableMatch i

/-- ADDR words carry their leading nibble. -/
theorem addr (c : Nibble) (nnn : Addr) : encodeAddr c nnn &&& 0xF000#16 = encodeAddr c 0#12 := by
  apply BitVec.eq_of_getLsbD_eq
  intro k hk
  simp only [encodeAddr, BitVec.getLsbD_and, BitVec.getLsbD_append]
  interval_cases k <;> simp

/-- REG_IMM words carry their leading nibble. -/
theorem regImm (c x : Nibble) (nn : Byte) :
    encodeRegImm c x nn &&& 0xF000#16 = encodeRegImm c 0#4 0#8 := by
  apply BitVec.eq_of_getLsbD_eq
  intro k hk
  simp only [encodeRegImm, BitVec.getLsbD_and, BitVec.getLsbD_append]
  interval_cases k <;> simp

/-- REG_SUB words carry their leading nibble and sub-tag. -/
theorem regSub (c x : Nibble) (nn : Byte) :
    encodeRegImm c x nn &&& 0xF0FF#16 = encodeRegImm c 0#4 nn := by
  apply BitVec.eq_of_getLsbD_eq
  intro k hk
  simp only [encodeRegImm, BitVec.getLsbD_and, BitVec.getLsbD_append]
  interval_cases k <;> simp

/-- REG_REG words carry their leading nibble and sub-tag. -/
theorem regReg (c x y n : Nibble) :
    encodeRegReg c x y n &&& 0xF00F#16 = encodeRegReg c 0#4 0#4 n := by
  apply BitVec.eq_of_getLsbD_eq
  intro k hk
  simp only [encodeRegReg, BitVec.getLsbD_and, BitVec.getLsbD_append]
  interval_cases k <;> simp

/-- DRAW words carry their leading nibble. -/
theorem draw (c x y n : Nibble) :
    encodeRegReg c x y n &&& 0xF000#16 = encodeRegReg c 0#4 0#4 0#4 := by
  apply BitVec.eq_of_getLsbD_eq
  intro k hk
  simp only [encodeRegReg, BitVec.getLsbD_and, BitVec.getLsbD_append]
  interval_cases k <;> simp

theorem cls : Statement .cls := rfl
theorem ret : Statement .ret := rfl
theorem sys (nnn : Addr) : Statement (.sys nnn) := addr 0x0#4 nnn
theorem jp (nnn : Addr) : Statement (.jp nnn) := addr 0x1#4 nnn
theorem call (nnn : Addr) : Statement (.call nnn) := addr 0x2#4 nnn
theorem seImm (x : Nibble) (nn : Byte) : Statement (.seImm x nn) := regImm 0x3#4 x nn
theorem sneImm (x : Nibble) (nn : Byte) : Statement (.sneImm x nn) := regImm 0x4#4 x nn
theorem seReg (x : Nibble) (y : Nibble) : Statement (.seReg x y) := regReg 0x5#4 x y 0x0#4
theorem ldImm (x : Nibble) (nn : Byte) : Statement (.ldImm x nn) := regImm 0x6#4 x nn
theorem addImm (x : Nibble) (nn : Byte) : Statement (.addImm x nn) := regImm 0x7#4 x nn
theorem ldReg (x : Nibble) (y : Nibble) : Statement (.ldReg x y) := regReg 0x8#4 x y 0x0#4
theorem or (x : Nibble) (y : Nibble) : Statement (.or x y) := regReg 0x8#4 x y 0x1#4
theorem and (x : Nibble) (y : Nibble) : Statement (.and x y) := regReg 0x8#4 x y 0x2#4
theorem xor (x : Nibble) (y : Nibble) : Statement (.xor x y) := regReg 0x8#4 x y 0x3#4
theorem addReg (x : Nibble) (y : Nibble) : Statement (.addReg x y) := regReg 0x8#4 x y 0x4#4
theorem sub (x : Nibble) (y : Nibble) : Statement (.sub x y) := regReg 0x8#4 x y 0x5#4
theorem shr (x : Nibble) (y : Nibble) : Statement (.shr x y) := regReg 0x8#4 x y 0x6#4
theorem subn (x : Nibble) (y : Nibble) : Statement (.subn x y) := regReg 0x8#4 x y 0x7#4
theorem shl (x : Nibble) (y : Nibble) : Statement (.shl x y) := regReg 0x8#4 x y 0xe#4
theorem sneReg (x : Nibble) (y : Nibble) : Statement (.sneReg x y) := regReg 0x9#4 x y 0x0#4
theorem ldI (nnn : Addr) : Statement (.ldI nnn) := addr 0xa#4 nnn
theorem jpV0 (nnn : Addr) : Statement (.jpV0 nnn) := addr 0xb#4 nnn
theorem rnd (x : Nibble) (nn : Byte) : Statement (.rnd x nn) := regImm 0xc#4 x nn
theorem drw (x : Nibble) (y : Nibble) (n : Nibble) : Statement (.drw x y n) := draw 0xd#4 x y n
theorem skp (x : Nibble) : Statement (.skp x) := regSub 0xe#4 x 0x9e#8
theorem sknp (x : Nibble) : Statement (.sknp x) := regSub 0xe#4 x 0xa1#8
theorem ldVxDt (x : Nibble) : Statement (.ldVxDt x) := regSub 0xf#4 x 0x7#8
theorem ldVxK (x : Nibble) : Statement (.ldVxK x) := regSub 0xf#4 x 0xa#8
theorem ldDtVx (x : Nibble) : Statement (.ldDtVx x) := regSub 0xf#4 x 0x15#8
theorem ldStVx (x : Nibble) : Statement (.ldStVx x) := regSub 0xf#4 x 0x18#8
theorem addIVx (x : Nibble) : Statement (.addIVx x) := regSub 0xf#4 x 0x1e#8
theorem ldFVx (x : Nibble) : Statement (.ldFVx x) := regSub 0xf#4 x 0x29#8
theorem ldBVx (x : Nibble) : Statement (.ldBVx x) := regSub 0xf#4 x 0x33#8
theorem ldMemVx (x : Nibble) : Statement (.ldMemVx x) := regSub 0xf#4 x 0x55#8
theorem ldVxMem (x : Nibble) : Statement (.ldVxMem x) := regSub 0xf#4 x 0x65#8

end Sys2Proof.Laws.FixedBits
end

