-- ==== Sys2Proof/Tests/Slice0.lean ====
section
/-! SUPPORT. Tests. The expected results are the words and vectors of spec/30_encoding.md and
spec/95_test_vectors.md (named in the comments) or hand calculation from the cited rules. After them, for
every obligation with hypotheses, a concrete state and operands that meet all of them together. -/

namespace Sys2Proof.Machine

/-! Helpers: a fresh machine (R45), and what one step from a state with a word placed at PC gives. -/

/-- A configuration with every parameter of R8 named: the shift source, which has no default, is `so`. -/
def testConfig (so : ShiftOperand) : Config := { defaultConfig with shiftOperand := so }

/-- The fresh machine of spec/95_test_vectors.md, shiftOperand = VX. -/
def fresh : State := State.construct (testConfig .vx)

/-- The fresh machine with shiftOperand = VY. -/
def freshVy : State := State.construct (testConfig .vy)

/-- The fresh machine with machineCall = Nop. -/
def freshNop : State := State.construct { testConfig .vx with machineCall := .nop }

/-- The fresh machine with indexIncrement = PlusXPlus1. -/
def freshPlus : State := State.construct { testConfig .vx with indexIncrement := .plusXPlus1 }

/-- The fresh machine with flagOrder = ResultLast. -/
def freshResultLast : State := State.construct { testConfig .vx with flagOrder := .resultLast }

/-- `s` with registers set: pairs of number and value. -/
def State.withRegs (s : State) (l : List (Nibble × Byte)) : State := l.foldl (fun s p => s.setV p.1 p.2) s

/-- `s` with PC moved. -/
def State.withPc (s : State) (a : Word) : State := { s with pc := a }

/-- `s` with the call stack given, top first. -/
def State.withStack (s : State) (l : List Word) : State := { s with stack := l }

/-- A step from `s` with the word `w` at PC answers a next state that passes `p`. -/
def stepGives (s : State) (w : Nat) (p : State → Bool) : Bool :=
  match step (s.withFetchWord 16 w) with
  | .next t => p t
  | .fault _ | .refused _ => false

/-- Executing `i` at `s` answers a next state that passes `p`. -/
def execGives (i : Instr) (s : State) (p : State → Bool) : Bool :=
  match exec i s with
  | .next t => p t
  | .fault _ | .refused _ => false

/-- A run of transactions answers a next state that passes `p`. -/
def runGives (ts : List Transaction) (s : State) (p : State → Bool) : Bool :=
  match runTransactions ts s with
  | .next t => p t
  | .fault _ | .refused _ => false

/-- The state is halted with this record. -/
def haltedWith (k : ErrorKind) (op : Option Word) (pc : Word) (t : State) : Bool :=
  t.mode == .halted { kind := k, opcode := op, pc := pc } && t.pc == pc

/-- The state after a step, for the witnesses (the machine never faults or refuses). -/
def State.afterStep (s : State) : State :=
  match step s with
  | .next t => t
  | .fault _ | .refused _ => s

/-- `s` with the word `w` at PC. -/
def State.at16 (s : State) (w : Nat) : State := s.withFetchWord 16 w

/-! Well-formedness (R107): the two ill-formed terms are refused, their neighbours are not. -/

theorem test_wellFormed_refuses_sys_00E0 : (Instr.sys 0x0E0#12).wellFormed = false := by decide
theorem test_wellFormed_refuses_sys_00EE : (Instr.sys 0x0EE#12).wellFormed = false := by decide
theorem test_wellFormed_accepts_sys_00E1 : (Instr.sys 0x0E1#12).wellFormed = true := by decide

/-! Decoding: one word of every constructor, written bit by bit from R101 and R105 to R111. -/

theorem test_decode_cls : decode 0b0000000011100000#16 = .ok .cls := by decide
theorem test_decode_ret : decode 0b0000000011101110#16 = .ok .ret := by decide
theorem test_decode_sys : decode 0b0000001100000000#16 = .ok (.sys 0x300#12) := by decide
theorem test_decode_jp : decode 0b0001001000110100#16 = .ok (.jp 0x234#12) := by decide
theorem test_decode_call : decode 0b0010001000010000#16 = .ok (.call 0x210#12) := by decide
theorem test_decode_seImm : decode 0b0011101000000101#16 = .ok (.seImm 0xA#4 0x05#8) := by decide
theorem test_decode_sneImm : decode 0b0100000100010000#16 = .ok (.sneImm 0x1#4 0x10#8) := by decide
theorem test_decode_seReg : decode 0b0101001000110000#16 = .ok (.seReg 0x2#4 0x3#4) := by decide
theorem test_decode_ldImm : decode 0b0110000000000101#16 = .ok (.ldImm 0x0#4 0x05#8) := by decide
theorem test_decode_addImm : decode 0b0111001100000011#16 = .ok (.addImm 0x3#4 0x03#8) := by decide
theorem test_decode_ldReg : decode 0b1000000100100000#16 = .ok (.ldReg 0x1#4 0x2#4) := by decide
theorem test_decode_or : decode 0b1000000100100001#16 = .ok (.or 0x1#4 0x2#4) := by decide
theorem test_decode_and : decode 0b1000000100100010#16 = .ok (.and 0x1#4 0x2#4) := by decide
theorem test_decode_xor : decode 0b1000000100100011#16 = .ok (.xor 0x1#4 0x2#4) := by decide
theorem test_decode_addReg : decode 0b1000000100100100#16 = .ok (.addReg 0x1#4 0x2#4) := by decide
theorem test_decode_sub : decode 0b1000000100100101#16 = .ok (.sub 0x1#4 0x2#4) := by decide
theorem test_decode_shr : decode 0b1000000100100110#16 = .ok (.shr 0x1#4 0x2#4) := by decide
theorem test_decode_subn : decode 0b1000000100100111#16 = .ok (.subn 0x1#4 0x2#4) := by decide
theorem test_decode_shl : decode 0b1000000100101110#16 = .ok (.shl 0x1#4 0x2#4) := by decide
theorem test_decode_sneReg : decode 0b1001001000110000#16 = .ok (.sneReg 0x2#4 0x3#4) := by decide
theorem test_decode_ldI : decode 0b1010000100100011#16 = .ok (.ldI 0x123#12) := by decide
theorem test_decode_jpV0 : decode 0b1011001100000000#16 = .ok (.jpV0 0x300#12) := by decide
theorem test_decode_rnd : decode 0b1100000100001111#16 = .ok (.rnd 0x1#4 0x0F#8) := by decide
theorem test_decode_drw : decode 0b1101000100101010#16 = .ok (.drw 0x1#4 0x2#4 0xA#4) := by decide
theorem test_decode_skp : decode 0b1110000110011110#16 = .ok (.skp 0x1#4) := by decide
theorem test_decode_sknp : decode 0b1110000110100001#16 = .ok (.sknp 0x1#4) := by decide
theorem test_decode_ldVxDt : decode 0b1111010100000111#16 = .ok (.ldVxDt 0x5#4) := by decide
theorem test_decode_ldVxK : decode 0b1111001100001010#16 = .ok (.ldVxK 0x3#4) := by decide
theorem test_decode_ldDtVx : decode 0b1111001100010101#16 = .ok (.ldDtVx 0x3#4) := by decide
theorem test_decode_ldStVx : decode 0b1111000000011000#16 = .ok (.ldStVx 0x0#4) := by decide
theorem test_decode_addIVx : decode 0b1111000000011110#16 = .ok (.addIVx 0x0#4) := by decide
theorem test_decode_ldFVx : decode 0b1111000000101001#16 = .ok (.ldFVx 0x0#4) := by decide
theorem test_decode_ldBVx : decode 0b1111000100110011#16 = .ok (.ldBVx 0x1#4) := by decide
theorem test_decode_ldMemVx : decode 0b1111001001010101#16 = .ok (.ldMemVx 0x2#4) := by decide
theorem test_decode_ldVxMem : decode 0b1111001001100101#16 = .ok (.ldVxMem 0x2#4) := by decide

/-! Rejected words (V-DE-7 to V-DE-9, V-DE-12, V-DE-13), short input (log entry 31), the decoder functions
outside their ranges (R316), and the size of the illegal set (V-DE-16, group by group from R112). -/

theorem test_reject_groups_5_and_9 :
    decode 0x5121#16 = .error (.unknownOpcode 0x5121#16) ∧
      decode 0x9121#16 = .error (.unknownOpcode 0x9121#16) := by decide
theorem test_reject_group_8 :
    ([0x8008#16, 0x8009#16, 0x800A#16, 0x800B#16, 0x800C#16, 0x800D#16, 0x800F#16].all
      fun op => (decodeTag op).isNone) = true := by decide
theorem test_reject_groups_E_and_F :
    ([0xE000#16, 0xE19F#16, 0xE1A0#16, 0xF000#16, 0xF108#16, 0xF1FF#16, 0xFFFF#16].all
      fun op => (decodeTag op).isNone) = true := by decide
theorem test_decodeBytes_truncated : decodeBytes [0x12#8] = .error .truncated := by decide
theorem test_decodeBytes_rest : decodeBytes [0x12#8, 0x34#8, 0x56#8] = .ok (.jp 0x234#12, [0x56#8]) := by
  decide
theorem test_decodeTableWord : decodeTableWord 16 0xD12A = some (.drw 1#4 2#4 0xA#4) := by decide
theorem test_nibble_W1 : nibble 0xD12A#16 3 = .ok 0xD ∧ nibble 0xD12A#16 0 = .ok 0xA := by decide
theorem test_lowBits_W1 : lowBits 0xD12A#16 3 = .ok 0x12A ∧ lowBits 0xD12A#16 2 = .ok 0x2A := by decide
theorem test_nibble_out_of_range : nibble 0xD12A#16 4 = .error .invalidIndex := by decide
theorem test_lowBits_out_of_range : lowBits 0xD12A#16 5 = .error .invalidCount := by decide
theorem test_group_8_counts_nine :
    ((List.range 16).filter fun n => (decodeGroup8 0#4 0#4 (BitVec.ofNat 4 n)).isSome).length = 9 := by
  decide

/-! The fetch and the step (V-EN-1 to V-EN-7, V-HO-7). -/

theorem test_fetch_is_big_endian : stepGives fresh 0x1234 (fun t => t.pc == 0x234#16) = true := by decide
theorem test_fetch_at_odd_pc :
    stepGives (fresh.withPc 0x201#16) 0x6042 (fun t => t.getV 0#4 == 0x42#8 && t.pc == 0x203#16) = true := by
  decide
theorem test_fetch_at_0xFFE :
    stepGives (fresh.withPc 0xFFE#16) 0x6001 (fun t => t.getV 0#4 == 1#8 && t.pc == 0x1000#16) = true := by
  decide
theorem test_fetch_at_0x1000_halts :
    runGives [.step] (fresh.withPc 0x1000#16) (haltedWith .outOfBounds none 0x1000#16) = true := by decide
theorem test_fetch_at_0xFFF_halts :
    runGives [.step] (fresh.withPc 0xFFF#16) (haltedWith .outOfBounds none 0xFFF#16) = true := by decide
theorem test_unknown_opcode_halts :
    stepGives fresh 0xFFFF (haltedWith .unknownOpcode (some 0xFFFF#16) 0x200#16) = true := by decide
theorem test_step_waiting_does_nothing :
    runGives [.step] { fresh with mode := .awaitingKey 3#4 } (· == { fresh with mode := .awaitingKey 3#4 })
      = true := by decide
theorem test_first_step_without_rom :
    runGives [.step] State.reset (fun t => t.pc == 0#16 && t.stack == [0x202#16]) = true := by decide

/-! Control flow (section 2.3 of the vectors). -/

theorem test_call :
    stepGives (fresh.withPc 0x204#16) 0x2210 (fun t => t.stack == [0x206#16] && t.pc == 0x210#16) = true := by
  decide
theorem test_call_overflow :
    stepGives ((fresh.withPc 0x400#16).withStack (List.replicate 16 0x202#16)) 0x2300
      (fun t => haltedWith .stackOverflow (some 0x2300#16) 0x400#16 t && t.sp == 16) = true := by decide
theorem test_ret :
    stepGives ((fresh.withPc 0x212#16).withStack [0x206#16]) 0x00EE
      (fun t => t.pc == 0x206#16 && t.sp == 0) = true := by decide
theorem test_ret_underflow :
    stepGives fresh 0x00EE (haltedWith .stackUnderflow (some 0x00EE#16) 0x200#16) = true := by decide
theorem test_sys_call :
    stepGives fresh 0x0300 (fun t => t.stack == [0x202#16] && t.pc == 0x300#16) = true := by decide
theorem test_sys_nop :
    stepGives freshNop 0x0300 (fun t => t.stack == [] && t.pc == 0x202#16) = true := by decide
theorem test_jp : stepGives fresh 0x1FFF (fun t => t.pc == 0xFFF#16 && t.mode == .running) = true := by
  decide
theorem test_seImm_W10 :
    stepGives (fresh.withRegs [(0xA#4, 5#8)]) 0x3A05 (fun t => t.pc == 0x204#16) = true ∧
      stepGives (fresh.withRegs [(0xA#4, 4#8)]) 0x3A05 (fun t => t.pc == 0x202#16) = true := by decide
theorem test_sneImm :
    stepGives (fresh.withRegs [(1#4, 0x10#8)]) 0x4110 (fun t => t.pc == 0x202#16) = true ∧
      stepGives (fresh.withRegs [(1#4, 0x10#8)]) 0x4111 (fun t => t.pc == 0x204#16) = true := by decide
theorem test_seReg :
    stepGives (fresh.withRegs [(2#4, 7#8), (3#4, 7#8)]) 0x5230 (fun t => t.pc == 0x204#16) = true := by
  decide
theorem test_sneReg :
    stepGives (fresh.withRegs [(2#4, 7#8), (3#4, 8#8)]) 0x9230 (fun t => t.pc == 0x204#16) = true ∧
      stepGives fresh 0x9220 (fun t => t.pc == 0x202#16) = true := by decide
theorem test_jpV0_top :
    stepGives (fresh.withRegs [(0#4, 0xFF#8)]) 0xBFFF (fun t => t.pc == 0x10FE#16) = true := by decide
theorem test_jpV0_uses_V0 :
    stepGives (fresh.withRegs [(1#4, 0x50#8)]) 0xB100 (fun t => t.pc == 0x100#16) = true := by decide

/-! Registers and ALU (section 2.4, W2 to W4; VF = 0x55 before). -/

/-- The fresh machine of section 2.4: VF = 0x55, V1 = a, V2 = b. -/
def alu (a b : Byte) : State := fresh.withRegs [(vf, 0x55#8), (1#4, a), (2#4, b)]

/-- V1, VF and V2 after a step. -/
def v1f2 (t : State) : Byte × Byte × Byte := (t.getV 1#4, t.getV vf, t.getV 2#4)

theorem test_ldImm_VF : stepGives fresh 0x6F12 (fun t => t.getV vf == 0x12#8) = true := by decide
theorem test_addImm_wraps :
    stepGives (alu 0xFF#8 0#8) 0x7101 (fun t => v1f2 t == (0x00#8, 0x55#8, 0#8)) = true := by decide
theorem test_addImm_VF :
    stepGives (fresh.withRegs [(vf, 0xFF#8)]) 0x7F01 (fun t => t.getV vf == 0#8) = true := by decide
theorem test_ldReg :
    stepGives (alu 0#8 0x9A#8) 0x8120 (fun t => v1f2 t == (0x9A#8, 0x55#8, 0x9A#8)) = true := by
  decide
theorem test_or :
    stepGives (alu 0x0F#8 0xF0#8) 0x8121 (fun t => v1f2 t == (0xFF#8, 0x55#8, 0xF0#8)) = true := by
  decide
theorem test_and :
    stepGives (alu 0x3C#8 0x0F#8) 0x8122 (fun t => v1f2 t == (0x0C#8, 0x55#8, 0x0F#8)) = true := by
  decide
theorem test_xor :
    stepGives (alu 0xFF#8 0x0F#8) 0x8123 (fun t => v1f2 t == (0xF0#8, 0x55#8, 0x0F#8)) = true := by
  decide
theorem test_addReg_carry :
    stepGives (alu 0xFF#8 0x01#8) 0x8124 (fun t => v1f2 t == (0#8, 1#8, 1#8)) = true := by
  decide
theorem test_addReg_flag_order :
    stepGives (fresh.withRegs [(vf, 0x10#8), (2#4, 0x20#8)]) 0x8F24 (fun t => t.getV vf == 0#8) = true ∧
      stepGives (freshResultLast.withRegs [(vf, 0x10#8), (2#4, 0x20#8)]) 0x8F24
        (fun t => t.getV vf == 0x30#8) = true := by decide
theorem test_sub_borrow :
    stepGives (alu 0x01#8 0x02#8) 0x8125 (fun t => v1f2 t == (0xFF#8, 0#8, 2#8)) = true := by
  decide
theorem test_sub_equal : stepGives (alu 0x03#8 0x03#8) 0x8125 (fun t => v1f2 t == (0#8, 1#8, 3#8)) = true := by
  decide
theorem test_subn : stepGives (alu 0x03#8 0x05#8) 0x8127 (fun t => v1f2 t == (2#8, 1#8, 5#8)) = true := by
  decide
theorem test_subn_borrow :
    stepGives (alu 0x05#8 0x03#8) 0x8127 (fun t => v1f2 t == (0xFE#8, 0#8, 3#8)) = true := by
  decide
theorem test_shr_VX : stepGives (alu 0x05#8 0#8) 0x8126 (fun t => v1f2 t == (2#8, 1#8, 0#8)) = true := by
  decide
theorem test_shr_VY :
    stepGives (freshVy.withRegs [(1#4, 0x77#8), (2#4, 0x10#8)]) 0x8126
      (fun t => v1f2 t == (8#8, 0#8, 0x10#8)) = true := by decide
theorem test_shl_VX : stepGives (alu 0x81#8 0#8) 0x812E (fun t => v1f2 t == (2#8, 1#8, 0#8)) = true := by
  decide
theorem test_shl_VY :
    stepGives (freshVy.withRegs [(1#4, 0x77#8), (2#4, 0x41#8)]) 0x812E
      (fun t => v1f2 t == (0x82#8, 0#8, 0x41#8)) = true := by decide
theorem test_ldI : stepGives fresh 0xA123 (fun t => t.i == 0x123#16) = true := by decide
theorem test_addIVx_wraps :
    stepGives ((alu 2#8 0#8).setI 0xFFFF#16) 0xF11E (fun t => t.i == 1#16 && t.getV vf == 0x55#8) = true := by
  decide
theorem test_addIVx_above_memory :
    stepGives ((alu 1#8 0#8).setI 0x0FFF#16) 0xF11E (fun t => t.i == 0x1000#16 && t.mode == .running) = true := by
  decide

/-- V-AL-17, with the draw given. -/
theorem test_rnd_masks_the_draw :
    (match rndWith 0xAB#8 1#4 0x0F#8 fresh with
      | .next t => t.getV 1#4 == 0x0B#8 && t.draws == 1
      | .fault _ | .refused _ => false) = true := by decide

/-- V-AL-18: with nn = 0 the result is 0 whatever the draw. -/
theorem test_rnd_zero_mask (rnd : Byte) :
    ∃ t, rndWith rnd 1#4 0#8 fresh = .next t ∧ t.getV 1#4 = 0#8 := by
  refine ⟨_, rfl, ?_⟩
  show (fresh.v.set 1 (rnd &&& 0#8))[1] = 0#8
  simp

/-! Display (section 2.5). -/

/-- V-DI-2: I = 0x220 holding `row`, V1 = 0x3E, V2 = 0x1F. -/
def corner (row : Byte) : State := ((fresh.withRegs [(1#4, 0x3E#8), (2#4, 0x1F#8)]).setI 0x220#16).writeByte 0x220 row

/-- The set pixels of row y. -/
def litColumns (t : State) (y : Nat) : List Nat := (List.range 64).filter fun x => t.pixel x y

theorem test_cls :
    stepGives { fresh with fb := Vector.replicate 32 (BitVec.allOnes 64) } 0x00E0
      (fun t => t.fb == Vector.replicate 32 0#64 && t.drewLastStep && t.getV vf == 0#8) = true := by decide
/-- V-DI-2 and V-DI-3: the sprite wraps at both edges, and a second draw clears it with VF = 1. -/
theorem test_drw_wraps_and_collides :
    stepGives (corner 0xF0#8) 0xD121 (fun t => litColumns t 31 == [0, 1, 62, 63] && t.getV vf == 0#8) = true ∧
      stepGives (((corner 0xF0#8).at16 0xD121).afterStep) 0xD121
        (fun t => litColumns t 31 == [] && t.getV vf == 1#8 && t.drewLastStep) = true := by decide
/-- V-DI-8, V-DI-4 and V-DI-6: VF is read as x first; a row above memory halts; n = 0 checks nothing. -/
theorem test_drw_corner_cases :
    stepGives (((fresh.withRegs [(vf, 8#8)]).setI 0x300#16).writeByte 0x300 0x80#8) 0xDF11
      (fun t => litColumns t 0 == [8] && t.getV vf == 0#8) = true ∧
    stepGives ((fresh.withRegs [(vf, 0x55#8)]).setI 0xFFF#16) 0xD012
      (fun t => haltedWith .outOfBounds (some 0xD012#16) 0x200#16 t && t.getV vf == 0x55#8) = true ∧
    stepGives ((fresh.withRegs [(vf, 0x55#8)]).setI 0x5000#16) 0xD010
      (fun t => t.mode == .running && t.getV vf == 0#8 && t.fb == fresh.fb) = true := by decide
theorem test_ldFVx :
    stepGives (fresh.withRegs [(0#4, 0x0A#8)]) 0xF029 (fun t => t.i == 0x082#16) = true ∧
      stepGives (fresh.withRegs [(0#4, 0xFF#8)]) 0xF029 (fun t => t.i == 0x54B#16) = true := by decide
/-- The five rows of the glyph of digit `d` in memory, as one number, row 0 the most significant byte. -/
def glyphInMemory (s : State) (d : Nat) : Nat :=
  (s.readBytes (BitVec.ofNat 16 (0x50 + 5 * d)) 5).foldl (fun acc b => acc * 256 + b.toNat) 0

/-- R66's table of glyphs 0 to 7, as right after reset. -/
theorem test_font_low :
    (List.range 8).map (glyphInMemory State.reset) =
      [0xF0909090F0, 0x2060202070, 0xF010F080F0, 0xF010F010F0] ++
      [0x9090F01010, 0xF080F010F0, 0xF080F090F0, 0xF010204040] := by decide
/-- R66's table of glyphs 8 to F, as right after reset. -/
theorem test_font_high :
    (List.range 8).map (fun d => glyphInMemory State.reset (8 + d)) =
      [0xF090F090F0, 0xF090F010F0, 0xF090F09090, 0xE090E090E0] ++
      [0xF0808080F0, 0xE0909090E0, 0xF080F080F0, 0xF080F08080] := by decide

/-! Timers and keys (section 2.6). -/

theorem test_ldVxDt : stepGives { fresh with dt := 0x3C#8 } 0xF107 (fun t => t.getV 1#4 == 0x3C#8) = true := by
  decide
theorem test_ldDtVx : stepGives (alu 0x10#8 0#8) 0xF115 (fun t => t.dt == 0x10#8 && t.st == 0#8) = true := by
  decide
theorem test_ldStVx :
    stepGives (alu 2#8 0#8) 0xF118 (fun t => t.st == 2#8 && t.dt == 0#8 && t.soundActive) = true := by
  decide
theorem test_tick_counts_to_zero :
    ({ fresh with dt := 1#8 }.tick.dt, fresh.tick.dt, { fresh with st := 255#8 }.tick.st) = (0#8, 0#8, 254#8) := by
  decide
theorem test_skp :
    stepGives ((alu 5#8 0#8).keyDown 5#4) 0xE19E (fun t => t.pc == 0x204#16) = true ∧
      stepGives (alu 5#8 0#8) 0xE19E (fun t => t.pc == 0x202#16) = true := by decide
theorem test_sknp :
    stepGives ((alu 5#8 0#8).keyDown 5#4) 0xE1A1 (fun t => t.pc == 0x202#16) = true ∧
      stepGives (alu 5#8 0#8) 0xE1A1 (fun t => t.pc == 0x204#16) = true := by decide
theorem test_skp_index_out_of_range :
    stepGives (alu 0x10#8 0#8) 0xE19E (fun t => t.mode == .faulted .keyIndexRange && t.pc == 0x200#16) = true := by
  decide
theorem test_ldVxK_begins :
    stepGives ((fresh.withPc 0x300#16).keyDown 4#4) 0xF50A
      (fun t => t.mode == .awaitingKey 5#4 && t.pc == 0x302#16 && t.getV 5#4 == 0#8) = true := by decide
theorem test_ldVxK_ends :
    runGives [.step, .step, .keyUp 2#4, .keyDown 7#4] (fresh.at16 0xF30A)
      (fun t => t.mode == .running && t.pc == 0x202#16 && t.getV 3#4 == 7#8 && t.keyPressed 7#4) = true := by
  decide
theorem test_keyDown_running :
    runGives [.keyDown 3#4] fresh (fun t => t.keyPressed 3#4 && t.v == fresh.v && t.mode == .running) = true := by
  decide

/-! Memory transfer (section 2.7). -/

theorem test_ldBVx_W7 :
    stepGives ((alu 157#8 0#8).setI 0x300#16) 0xF133
      (fun t => t.readBytes 0x300#16 3 == [1#8, 5#8, 7#8] && t.i == 0x300#16) = true := by decide
theorem test_ldBVx_out_of_bounds :
    stepGives ((alu 255#8 0#8).setI 0xFFE#16) 0xF133
      (fun t => haltedWith .outOfBounds (some 0xF133#16) 0x200#16 t && t.readBytes 0xFFE#16 2 == [0#8, 0#8])
      = true := by decide
theorem test_ldMemVx :
    stepGives ((freshPlus.withRegs [(0#4, 1#8), (1#4, 2#8), (2#4, 3#8), (3#4, 9#8)]).setI 0x300#16) 0xF255
      (fun t => t.readBytes 0x300#16 4 == [1#8, 2#8, 3#8, 0#8] && t.i == 0x303#16) = true := by decide
theorem test_ldMemVx_out_of_bounds :
    stepGives (fresh.setI 0xFF1#16) 0xFF55 (haltedWith .outOfBounds (some 0xFF55#16) 0x200#16) = true := by
  decide
theorem test_ldVxMem :
    stepGives (((fresh.withRegs [(3#4, 0x99#8)]).setI 0x300#16).writeBytes 0x300 [1#8, 5#8, 7#8, 8#8]) 0xF265
      (fun t => t.getV 0#4 == 1#8 && t.getV 1#4 == 5#8 && t.getV 2#4 == 7#8 && t.getV 3#4 == 0x99#8 &&
        t.i == 0x300#16) = true := by decide
theorem test_ldVxMem_out_of_bounds :
    stepGives (fresh.setI 0xFFF#16) 0xF165 (haltedWith .outOfBounds (some 0xF165#16) 0x200#16) = true := by
  decide

/-! Host transactions (section 2.8). -/

theorem test_loadRom_small :
    (match (fresh.writeByte 0x202 0xFF#8).loadRom [0x12#8, 0x34#8] with
      | .ok t => t.readBytes 0x200#16 3 == [0x12#8, 0x34#8, 0xFF#8]
      | .romTooLarge => false) = true := by decide
theorem test_loadRom_empty : fresh.loadRom [] = .ok fresh := by decide
theorem test_reset_ends_a_wait :
    runGives [.reset] { (fresh.withRegs [(3#4, 9#8)]).withPc 0x302#16 with mode := .awaitingKey 3#4 } (· == fresh)
      = true := by decide
theorem test_memory_write_is_canonical :
    ((fresh.writeByte 0x300 5#8).writeByte 0x300 0#8).mem = [] ∧
      (fresh.writeByte 0x050 0xF0#8).mem = [] ∧ (fresh.writeByte 0x050 0#8).mem = [(0x050, 0#8)] := by
  decide

/-! Witnesses: for every obligation with hypotheses, a concrete state and operands that meet them, each
clause at a boundary of its range. `witness_<Obligation>` names the obligation. -/

/-- A running machine whose next word, at the last fetch address 0xFFE, is `w`. -/
def lastWord (w : Nat) : State := (fresh.withPc 0xFFE#16).at16 w

/-- Sixteen return addresses: a full call stack. -/
def fullStack : List Word := List.replicate 16 0x1000#16

/-- A halted machine. -/
def haltedState : State :=
  { fresh with mode := .halted { kind := .stackUnderflow, opcode := some 0x00EE#16, pc := 0x200#16 } }

/-- A faulted machine. -/
def faultedState : State := { fresh with mode := .faulted .keyIndexRange }

/-- A machine waiting for a key. -/
def waitingState : State := { fresh with mode := .awaitingKey 0xF#4 }

theorem witness_OpcodeFieldsAreTheSlicesOfTheWord : 3 < 4 ∧ nibble 0xFFFF#16 4 = .error .invalidIndex := by
  decide

theorem witness_DecodeOfEncodeIsTheInstruction :
    (Instr.sys 0x0ED#12).wellFormed = true ∧ (Instr.drw 0xF#4 0xF#4 0xF#4).wellFormed = true := by decide

theorem witness_EncodeOfDecodeIsTheWord :
    decode 0x0FFF#16 = .ok (.sys 0xFFF#12) ∧ decode 0xFF65#16 = .ok (.ldVxMem 0xF#4) := by decide

theorem witness_RejectedWordsAreTheIllegalEncodings :
    illegalOpcode 0x5001 ∧ illegalOpcode 0x800F ∧ illegalOpcode 0xE09F ∧ illegalOpcode 0xFF66 ∧
      ¬illegalOpcode 0x5000 ∧ ¬illegalOpcode 0x800E ∧ ¬illegalOpcode 0xE09E ∧ ¬illegalOpcode 0xFF65 := by
  simp [illegalOpcode]

theorem witness_ResetGivesEveryStateItsInitialValue :
    waitingState.restart ∈ [State.construct waitingState.cfg, waitingState.restart] ∧
      0x04F < waitingState.cfg.fontBase.toNat ∧ waitingState.cfg.fontBase.toNat + 80 ≤ 0x0A0 :=
  ⟨by simp, by decide⟩

theorem witness_InvariantHoldsAtReset :
    ({ testConfig .vx with fontBase := 0x1B0#12 }.wf, { testConfig .vx with fontBase := 0x1B1#12 }.wf)
      = (true, false) := by decide

theorem fresh_mode : fresh.mode = .running := rfl
theorem waitingState_mode : waitingState.mode = .awaitingKey 0xF#4 := rfl
theorem haltedState_mode :
    haltedState.mode = .halted { kind := .stackUnderflow, opcode := some 0x00EE#16, pc := 0x200#16 } := rfl

/-- What the invariant asks of the parts the three states share. -/
theorem fresh_parts : fresh.cfg.wf = true ∧ fresh.memoryWf = true ∧ fresh.sp ≤ 16 ∧
    (∀ a ∈ fresh.stack, a.toNat ≤ 0x1000) ∧ fresh.pc.toNat ≤ 0x10FE ∧ fresh.drewLastStep = false :=
  ⟨by decide, by decide, by decide, nofun, by decide, rfl⟩

theorem fresh_inv : fresh.Inv :=
  have ⟨c, m, d, v, p, w⟩ := fresh_parts
  ⟨c, m, d, v, p, fun _ => w, fun e h => by rw [fresh_mode] at h; exact nomatch h⟩

theorem waitingState_inv : waitingState.Inv :=
  have ⟨c, m, d, v, p, w⟩ := fresh_parts
  ⟨c, m, d, v, p, fun _ => w, fun e h => by rw [waitingState_mode] at h; exact nomatch h⟩

theorem haltedState_inv : haltedState.Inv :=
  have ⟨c, m, d, v, p, w⟩ := fresh_parts
  ⟨c, m, d, v, p, fun _ => w, fun e h => by
    rw [haltedState_mode] at h
    obtain rfl := Mode.halted.inj h
    exact ⟨rfl, rfl, by decide⟩⟩

theorem witness_StepKeepsTheInvariant :
    fresh.Inv ∧ step fresh = .next fresh.afterStep ∧ fresh.afterStep.pc = 0#16 :=
  ⟨fresh_inv, rfl, rfl⟩

theorem witness_StepKeepsTheInvariant_other_modes :
    haltedState.Inv ∧ step haltedState = .next haltedState ∧ waitingState.Inv ∧
      step waitingState = .next waitingState :=
  ⟨haltedState_inv, rfl, waitingState_inv, rfl⟩

theorem witness_TransactionsKeepTheInvariant :
    waitingState.Inv ∧ runTransactions [.tick, .keyDown 7#4, .loadRom [0x12#8, 0x00#8]] waitingState =
      .next ((waitingState.keyDown 7#4).writeBytes 0x200 [0x12#8, 0x00#8]) :=
  ⟨waitingState_inv, rfl⟩

theorem witness_StepRunsTheDecodedInstruction :
    (lastWord 0x6001).mode = .running ∧ (lastWord 0x6001).pc.toNat ≤ 0xFFE ∧
      decode (lastWord 0x6001).fetchOpcode = .ok (.ldImm 0#4 1#8) := by decide

theorem witness_FetchIsBigEndianAndSeesTheLastWrite :
    (fresh.withPc 0xFFE#16).memoryWf = true ∧ (fresh.withPc 0xFFE#16).pc.toNat ≤ 0xFFE := by decide

theorem witness_PlacedWordRunsNext :
    (fresh.withPc 0xFFE#16).memoryWf = true ∧ (fresh.withPc 0xFFE#16).mode = .running ∧
      (fresh.withPc 0xFFE#16).pc.toNat ≤ 0xFFE ∧ decodeTableWord 16 0x00E0 = some .cls := by decide

theorem witness_FetchBeyondMemoryHalts :
    (fresh.withPc 0xFFF#16).mode = .running ∧ 0xFFE < (fresh.withPc 0xFFF#16).pc.toNat := by decide

theorem witness_UnknownOpcodeHalts :
    (lastWord 0xFFFF).mode = .running ∧ (lastWord 0xFFFF).pc.toNat ≤ 0xFFE ∧
      decode (lastWord 0xFFFF).fetchOpcode = .error (.unknownOpcode (lastWord 0xFFFF).fetchOpcode) := by
  decide

theorem witness_IdleModesIgnoreSteps :
    waitingState.mode ≠ .running ∧ haltedState.mode ≠ .running ∧ faultedState.mode ≠ .running := by decide

/-- A step from `s` halts with an error of kind `k`: the hypotheses of `FatalErrorsCommitNothing`. -/
def HaltsAtStep (s : State) (k : ErrorKind) : Prop :=
  s.mode = .running ∧ ∃ t e, step s = .next t ∧ t.mode = .halted e ∧ e.kind = k

theorem witness_FatalErrorsCommitNothing :
    HaltsAtStep (lastWord 0xFFFF) .unknownOpcode ∧
      HaltsAtStep ((fresh.withStack fullStack).at16 0x2300) .stackOverflow ∧
      HaltsAtStep (lastWord 0x00EE) .stackUnderflow ∧
      HaltsAtStep ((fresh.setI 0xFFE#16).at16 0xF033) .outOfBounds ∧
      HaltsAtStep (fresh.withPc 0xFFF#16) .outOfBounds :=
  ⟨⟨by decide, _, _, rfl, rfl, rfl⟩, ⟨by decide, _, _, rfl, rfl, rfl⟩, ⟨by decide, _, _, rfl, rfl, rfl⟩,
    ⟨by decide, _, _, rfl, rfl, rfl⟩, ⟨by decide, _, _, rfl, rfl, rfl⟩⟩

theorem witness_FaultedOnlyForAKeyIndexOutOfRange :
    ((alu 16#8 0#8).at16 0xE19E).mode = .running ∧
      ∃ t, step ((alu 16#8 0#8).at16 0xE19E) = .next t ∧ t.mode = .faulted .keyIndexRange :=
  ⟨by decide, _, rfl, rfl⟩

theorem witness_InstructionsWriteOnlyTheirFootprint :
    ∃ t u, exec (.ldMemVx 0xF#4) (fresh.setI 0xFF0#16) = .next t ∧ t.pc = 0x202#16 ∧
      exec (.ldMemVx 0xF#4) (fresh.setI 0xFF1#16) = .next u ∧ u.pc = 0x200#16 :=
  ⟨_, _, rfl, rfl, rfl, rfl⟩

theorem witness_StepsWriteOnlyTheFetchedFootprint :
    ((lastWord 0x6001).mode = .running ∧ step (lastWord 0x6001) = .next (lastWord 0x6001).afterStep ∧
      decode (lastWord 0x6001).fetchOpcode = .ok (.ldImm 0#4 1#8) ∧ (lastWord 0x6001).pc.toNat ≤ 0xFFE) ∧
    ((lastWord 0xFFFF).mode = .running ∧ step (lastWord 0xFFFF) = .next (lastWord 0xFFFF).afterStep ∧
      decode (lastWord 0xFFFF).fetchOpcode = .error (.unknownOpcode 0xFFFF#16)) ∧
    ((fresh.withPc 0xFFF#16).mode = .running ∧ 0xFFE < (fresh.withPc 0xFFF#16).pc.toNat) :=
  ⟨⟨by decide, rfl, by decide⟩, ⟨by decide, rfl, by decide⟩, by decide⟩

theorem witness_DrewLastStepTellsACompletedDraw :
    (lastWord 0x00E0).mode = .running ∧ (∃ t, step (lastWord 0x00E0) = .next t ∧ t.drewLastStep = true) ∧
      { lastWord 0x6001 with drewLastStep := true }.mode = .running ∧
      ∃ t, step { lastWord 0x6001 with drewLastStep := true } = .next t ∧ t.drewLastStep = false :=
  ⟨by decide, ⟨_, rfl, rfl⟩, by decide, _, rfl, rfl⟩

theorem witness_CallPushesAndJumpsOrOverflows :
    (fresh.withStack (fullStack.drop 1)).sp < 16 ∧ (fresh.withStack (fullStack.drop 1)).sp = 15 ∧
      (fresh.withStack fullStack).sp = 16 := by decide

theorem witness_MachineCallFollowsItsConfiguration :
    (fresh.withStack (fullStack.drop 1)).cfg.machineCall = .call ∧
      (fresh.withStack (fullStack.drop 1)).sp < 16 ∧ (fresh.withStack fullStack).cfg.machineCall = .call ∧
      (fresh.withStack fullStack).sp = 16 ∧ (freshNop.withStack fullStack).cfg.machineCall = .nop := by
  decide

theorem witness_ReturnPopsOrUnderflows :
    (0 < (fresh.withStack fullStack).sp ∧
      (fresh.withStack fullStack).stackEntry ((fresh.withStack fullStack).sp - 1) = some 0x1000#16) ∧
      (0 < (fresh.withStack [0x206#16]).sp ∧
        (fresh.withStack [0x206#16]).stackEntry ((fresh.withStack [0x206#16]).sp - 1) = some 0x206#16) ∧
      fresh.sp = 0 := by decide

theorem witness_ReturnUndoesACall : (fresh.withStack (fullStack.drop 1)).sp < 16 := by decide

theorem witness_ImmediateSkipsCompareAsStated :
    ((alu 5#8 0#8).getV 1#4).toNat = (5#8).toNat ∧ ((alu 5#8 0#8).getV 1#4).toNat ≠ (6#8).toNat := by decide

theorem witness_RegisterSkipsCompareAsStated :
    ((alu 5#8 5#8).getV 1#4).toNat = ((alu 5#8 5#8).getV 2#4).toNat ∧
      ((alu 5#8 6#8).getV 1#4).toNat ≠ ((alu 5#8 6#8).getV 2#4).toNat := by decide

/-- The three cases of `WritesResultAndFlag`: another register, VF under each flag order. -/
theorem witness_AddSetsTheCarry :
    (1#4 : Nibble) ≠ vf ∧ (0xF#4 : Nibble) = vf ∧ fresh.cfg.flagOrder = .flagLast ∧
      freshResultLast.cfg.flagOrder = .resultLast := by decide

theorem witness_SubtractionsSetNoBorrow :
    (0xE#4 : Nibble) ≠ vf ∧ (0xF#4 : Nibble) = vf ∧ fresh.cfg.flagOrder = .flagLast ∧
      freshResultLast.cfg.flagOrder = .resultLast := by decide

theorem witness_ShiftsTakeTheConfiguredSource :
    ((alu 0x81#8 0#8).cfg.shiftOperand = .vx ∧ 0x81 = ((alu 0x81#8 0#8).getV 1#4).toNat) ∧
      (freshVy.withRegs [(2#4, 0x41#8)]).cfg.shiftOperand = .vy ∧
      0x41 = ((freshVy.withRegs [(2#4, 0x41#8)]).getV 2#4).toNat := by decide

theorem witness_DrawFlipsTheCoveredPixels :
    ((0#4).toNat = 0 ∨ (fresh.setI 0xFFFF#16).i.toNat + (0#4).toNat ≤ 0x1000) ∧
      ((0xF#4).toNat = 0 ∨ (fresh.setI 0xFF1#16).i.toNat + (0xF#4).toNat ≤ 0x1000) := by decide

/-- A covered pixel (the wrapped corner), one the sprite does not cover, and the collision of a second draw. -/
theorem witness_DrawFlipsTheCoveredPixels_pixels :
    (corner 0xF0#8).spriteCovers 1#4 2#4 1#4 1 31 ∧ ¬(corner 0xF0#8).spriteCovers 1#4 2#4 1#4 2 31 ∧
      ((corner 0xF0#8).at16 0xD121).afterStep.pixel 1 31 = true := by
  unfold State.spriteCovers covers
  decide

theorem witness_DrawBeyondMemoryHalts :
    (0 < (1#4).toNat ∧ 0xFFF < (fresh.setI 0x1000#16).i.toNat + (1#4).toNat - 1) ∧
      0 < (0xF#4).toNat ∧ 0xFFF < (fresh.setI 0xFF2#16).i.toNat + (0xF#4).toNat - 1 := by decide

theorem witness_DrawingTwiceRestoresThePixels :
    (1#4 : Nibble) ≠ vf ∧ (2#4 : Nibble) ≠ vf ∧ (corner 0xF0#8).i.toNat + (1#4).toNat ≤ 0x1000 ∧
      ((corner 0xF0#8).at16 0xD121).afterStep.getV vf = 0#8 ∧
      ∃ px py, (corner 0xF0#8).spriteCovers 1#4 2#4 1#4 px py :=
  ⟨by decide, by decide, by decide, by decide, 1, 31, witness_DrawFlipsTheCoveredPixels_pixels.1⟩

theorem witness_KeySkipsTestTheNamedKey :
    ((alu 15#8 0#8).getV 1#4).toNat = (0xF#4).toNat ∧ (alu 15#8 0#8).keyPressed 0xF#4 = false ∧
      (((alu 15#8 0#8).keyDown 0xF#4).getV 1#4).toNat = (0xF#4).toNat ∧
      ((alu 15#8 0#8).keyDown 0xF#4).keyPressed 0xF#4 = true ∧ 15 < ((alu 16#8 0#8).getV 1#4).toNat := by
  decide

theorem witness_KeyEventsUpdateTheKeypadAndEndTheWait :
    waitingState.mode = .awaitingKey 0xF#4 ∧ fresh.mode = .running ∧
      (∀ x, haltedState.mode ≠ .awaitingKey x) := by decide

theorem witness_KeyWaitLastsUntilAKeyDown :
    (lastWord 0xFF0A).mode = .running ∧ (lastWord 0xFF0A).pc.toNat ≤ 0xFFE ∧
      decode (lastWord 0xFF0A).fetchOpcode = .ok (.ldVxK 0xF#4) ∧
      ∀ t ∈ [Transaction.step, .tick, .keyUp 2#4], t = .step ∨ t = .tick ∨ ∃ j, t = .keyUp j := by decide

theorem witness_TickCommutesWithStepsThatUseNoTimer :
    ∀ x, decode (lastWord 0x6001).fetchOpcode ≠ .ok (.ldVxDt x) ∧
      decode (lastWord 0x6001).fetchOpcode ≠ .ok (.ldDtVx x) ∧
      decode (lastWord 0x6001).fetchOpcode ≠ .ok (.ldStVx x) := by decide

theorem witness_BcdStoresTheDecimalDigits :
    ((fresh.setI 0xFFD#16).memoryWf = true ∧ (fresh.setI 0xFFD#16).i.toNat + 2 ≤ 0xFFF) ∧
      0xFFF < (fresh.setI 0xFFE#16).i.toNat + 2 := by decide

theorem witness_StoreWritesTheLowRegisters :
    ((fresh.setI 0xFF0#16).memoryWf = true ∧ (fresh.setI 0xFF0#16).i.toNat + (0xF#4).toNat ≤ 0xFFF ∧
      fresh.cfg.indexIncrement = .unchanged) ∧
      ((freshPlus.setI 0xFF0#16).memoryWf = true ∧ (freshPlus.setI 0xFF0#16).i.toNat + (0xF#4).toNat ≤ 0xFFF ∧
        freshPlus.cfg.indexIncrement = .plusXPlus1) ∧
      0xFFF < (fresh.setI 0xFF1#16).i.toNat + (0xF#4).toNat := by decide

theorem witness_LoadReadsTheLowRegisters :
    ((fresh.setI 0xFFF#16).i.toNat + (0#4).toNat ≤ 0xFFF ∧ fresh.cfg.indexIncrement = .unchanged) ∧
      ((freshPlus.setI 0xFF0#16).i.toNat + (0xF#4).toNat ≤ 0xFFF ∧
        freshPlus.cfg.indexIncrement = .plusXPlus1) ∧
      0xFFF < (fresh.setI 0xFFF#16).i.toNat + (1#4).toNat := by decide

theorem witness_LoadGivesBackWhatStoreWrote :
    (fresh.setI 0xFF0#16).memoryWf = true ∧ (fresh.setI 0xFF0#16).i.toNat + (0xF#4).toNat ≤ 0xFFF := by
  decide

theorem witness_RomLoadCopiesOrRejects :
    fresh.memoryWf = true ∧ (List.replicate 3584 0xFF#8).length ≤ 3584 ∧
      3584 < (List.replicate 3585 0xFF#8).length :=
  ⟨by decide, by rw [List.length_replicate], by rw [List.length_replicate]; omega⟩

theorem witness_ConfigurationNeverChanges :
    runTransactions [.tick, .keyUp 3#4, .reset] waitingState = .next fresh := rfl

theorem witness_HaltedAndFaultedLastUntilReset :
    (∃ e, haltedState.mode = .halted e) ∧ (∃ r, faultedState.mode = .faulted r) ∧
      (∀ u ∈ [Transaction.step, .keyDown 3#4], u ≠ .reset) ∧
      runTransactions [.step, .keyDown 3#4] haltedState = .next (haltedState.keyDown 3#4) ∧
      runTransactions [.step, .keyDown 3#4] faultedState = .next (faultedState.keyDown 3#4) :=
  ⟨⟨_, rfl⟩, ⟨_, rfl⟩, by decide, rfl, rfl⟩

theorem witness_OnlyStepsHaltAndResetRevives :
    fresh.live = true ∧ ∃ t, Transaction.step.apply (fresh.withPc 0xFFF#16) = .next t ∧ t.live = false :=
  ⟨by decide, _, rfl, rfl⟩

end Sys2Proof.Machine
end

section
namespace Sys2Proof.Machine

/-- The default font base 0x050 leaves room for the font table below 0x200 (R8). -/
theorem defaultConfig_wf : defaultConfig.wf = true := by decide

/-- R45, R360: construction lists no memory and stacks nothing, PC is 0x200 and the mode Running, so only the
configuration's own constraint (R8) is left to ask for. -/
theorem State.construct_inv (c : Config) (hc : c.wf = true) : (State.construct c).Inv where
  config      := hc
  memory      := Memory.wf_nil _
  stackDepth  := Nat.zero_le 16
  stackValues := List.forall_mem_nil _
  pcBound     := show (0x200#16).toNat ≤ 0x10FE by decide
  drew        := fun _ => rfl
  record      := fun _ h => nomatch (h : Mode.running = .halted _)

/-- Settles O7: construction meets the invariant for every configuration R8 allows, and `State.reset` is the
construction with one of them. -/
theorem invariantHoldsAtReset : Obligations.InvariantHoldsAtReset :=
  ⟨State.construct_inv, State.construct_inv defaultConfig defaultConfig_wf⟩

end Sys2Proof.Machine
end

section
/-! The frame of every state operation, lifted to the instructions, the step and the transactions (R42). -/

namespace Sys2Proof.Machine

/-- What holds of the state a result carries holds of the state the result answers. -/
theorem of_next_eq {P : State → Prop} {s t : State} (h : (.next s : Result) = .next t) (hs : P s) : P t :=
  Host.Outcome.next.inj h ▸ hs

/-! ### Frames of the state operations -/

theorem Frame.refl (w : Footprint) (s : State) : Frame w s s where
  regs _ _ := rfl
  index _ := rfl
  stack _ := rfl
  delay _ := rfl
  sound _ := rfl
  pixels _ _ _ := rfl
  memory _ _ := rfl
  mode _ := rfl
  drew _ := rfl
  draws _ := rfl
  keys _ := rfl
  config := rfl

theorem Frame.trans {w : Footprint} {s t u : State} (h : Frame w s t) (k : Frame w t u) : Frame w s u where
  regs r hr := (k.regs r hr).trans (h.regs r hr)
  index e := (k.index e).trans (h.index e)
  stack e := (k.stack e).trans (h.stack e)
  delay e := (k.delay e).trans (h.delay e)
  sound e := (k.sound e).trans (h.sound e)
  pixels e x y := (k.pixels e x y).trans (h.pixels e x y)
  memory a ha := (k.memory a ha).trans (h.memory a ha)
  mode e := (k.mode e).trans (h.mode e)
  drew e := (k.drew e).trans (h.drew e)
  draws e := (k.draws e).trans (h.draws e)
  keys r := (k.keys r).trans (h.keys r)
  config := k.config.trans h.config

section
variable {w : Footprint} (s : State)

/-- PC stands outside every footprint. -/
theorem Frame.setPc (p : Word) : Frame w s { s with pc := p } := { Frame.refl w s with }

theorem Frame.advance : Frame w s s.advance := Frame.setPc s _

theorem Frame.setRegs (v : Vector Byte 16)
    (hv : ∀ r, r ∉ w.regs → State.getV { s with v := v } r = s.getV r) :
    Frame w s { s with v := v } :=
  { Frame.refl w s with regs := hv }

theorem Frame.setV {x : Nibble} (b : Byte) (hx : x ∈ w.regs) : Frame w s (s.setV x b) :=
  Frame.setRegs s _ fun r hr => (s.getV_setV x r b).trans (if_neg fun e : r = x => hr (e ▸ hx))

theorem Frame.setI (a : Word) (hw : w.index = true) : Frame w s (s.setI a) :=
  { Frame.refl w s with index := fun e => nomatch hw.symm.trans e }

theorem Frame.setStackAndPc (l : List Word) (p : Word) (hw : w.stack = true) :
    Frame w s { s with stack := l, pc := p } :=
  { Frame.refl w s with stack := fun e => nomatch hw.symm.trans e }

theorem Frame.setDt (b : Byte) (hw : w.delay = true) : Frame w s { s with dt := b } :=
  { Frame.refl w s with delay := fun e => nomatch hw.symm.trans e }

theorem Frame.setSt (b : Byte) (hw : w.sound = true) : Frame w s { s with st := b } :=
  { Frame.refl w s with sound := fun e => nomatch hw.symm.trans e }

theorem Frame.setMode (m : Mode) (hw : w.mode = true) : Frame w s { s with mode := m } :=
  { Frame.refl w s with mode := fun e => nomatch hw.symm.trans e }

theorem Frame.setDraws (n : Nat) (hw : w.draws = true) : Frame w s { s with draws := n } :=
  { Frame.refl w s with draws := fun e => nomatch hw.symm.trans e }

theorem Frame.setDrewLastStep (b : Bool) (hw : w.drew = true) : Frame w s { s with drewLastStep := b } :=
  { Frame.refl w s with drew := fun e => nomatch hw.symm.trans e }

/-- The two outputs of a display instruction (R251, R252, R331). -/
theorem Frame.setScreen (fb : Framebuffer) (b : Bool) (hp : w.pixels = true) (hd : w.drew = true) :
    Frame w s { s with fb := fb, drewLastStep := b } :=
  { Frame.refl w s with
    pixels := fun e => nomatch hp.symm.trans e
    drew := fun e => nomatch hd.symm.trans e }

theorem Frame.writeResultAndFlag {x : Nibble} (rf : Byte × Byte) (hx : x ∈ w.regs) (hf : vf ∈ w.regs) :
    Frame w s (s.writeResultAndFlag x rf) := by
  unfold State.writeResultAndFlag
  split
  · exact (Frame.setV s _ hx).trans (Frame.setV _ _ hf)
  · exact (Frame.setV s _ hf).trans (Frame.setV _ _ hx)

theorem Frame.loadLowRegs {x : Nibble} (hw : ∀ r : Nibble, r.toNat ≤ x.toNat → r ∈ w.regs) :
    Frame w s (s.loadLowRegs x) :=
  Frame.setRegs s _ fun r hr => (s.getV_loadLowRegs x r).trans (if_neg (mt (hw r) hr))

theorem Frame.incrementIndex (x : Nibble) (hw : s.cfg.indexIncrement = .plusXPlus1 → w.index = true) :
    Frame w s (s.incrementIndex x) := by
  unfold State.incrementIndex
  split
  · exact Frame.refl w s
  next hinc => exact Frame.setI s _ (hw hinc)

theorem Frame.writeBytes {a : Nat} {bs : List Byte} (hw : ∀ p, a ≤ p → p < a + bs.length → p ∈ w.memory) :
    Frame w s (s.writeBytes a bs) where
  regs r _ := s.writeBytes_getV a bs r
  index _ := s.writeBytes_i a bs
  stack _ := s.writeBytes_stack a bs
  delay _ := s.writeBytes_dt a bs
  sound _ := s.writeBytes_st a bs
  pixels _ := s.writeBytes_pixel a bs
  memory p hp := State.readByte_writeBytes_outside bs s a p <| by
    by_contra hin
    exact hp (hw p (by omega) (by omega))
  mode _ := s.writeBytes_mode a bs
  drew _ := s.writeBytes_drewLastStep a bs
  draws _ := s.writeBytes_draws a bs
  keys := s.writeBytes_keyPressed a bs
  config := s.writeBytes_cfg a bs

end

/-! ### Frames of the operations the meanings share -/

section
variable {w : Footprint} {s t : State}

theorem Frame.of_raise {k : ErrorKind} {op : Option Word} (hw : w.mode = true)
    (h : raise k op s = .next t) : Frame w s t :=
  of_next_eq h (Frame.setMode s _ hw)

theorem Frame.of_writeV {x : Nibble} {b : Byte} (hx : x ∈ w.regs) (h : writeV x b s = .next t) :
    Frame w s t :=
  of_next_eq h ((Frame.advance s).trans (Frame.setV _ _ hx))

theorem Frame.of_writeVAndFlag {x : Nibble} {rf : Byte × Byte} (hx : x ∈ w.regs) (hf : vf ∈ w.regs)
    (h : writeVAndFlag x rf s = .next t) : Frame w s t :=
  of_next_eq h ((Frame.advance s).trans (Frame.writeResultAndFlag _ _ hx hf))

/-- A checked operation writes what the operation writes, or takes its error (R64, R150). -/
theorem Frame.of_ite_raise {c : Prop} [Decidable c] {u : State} {k : ErrorKind} {op : Option Word}
    (hw : w.mode = true) (hu : c → Frame w s u)
    (h : (if c then .next u else raise k op s) = .next t) : Frame w s t := by
  split at h
  next hc => exact of_next_eq h (hu hc)
  · exact Frame.of_raise hw h

theorem Frame.of_callTo {op : Word} {nnn : Addr} (hstack : w.stack = true) (hmode : w.mode = true)
    (h : callTo op nnn s = .next t) : Frame w s t := by
  rw [callTo_eq] at h
  exact Frame.of_ite_raise hmode (fun _ => Frame.setStackAndPc s _ _ hstack) h

theorem Frame.of_execRet (hstack : w.stack = true) (hmode : w.mode = true) (h : execRet s = .next t) :
    Frame w s t := by
  rw [execRet_eq] at h
  split at h
  · exact Frame.of_raise hmode h
  · exact of_next_eq h (Frame.setStackAndPc s _ _ hstack)

theorem Frame.of_skipOnKey {b : Bool} {x : Nibble} (hw : w.mode = true)
    (h : skipOnKey b x s = .next t) : Frame w s t := by
  rw [skipOnKey_eq] at h
  split at h
  · exact of_next_eq h (Frame.setPc s _)
  · exact of_next_eq h (Frame.setMode s _ hw)

end

/-! ### Frames of the instructions -/

/-- FX33 stores three digits (R290). -/
@[simp] theorem length_bcdDigits (b : Byte) : (bcdDigits b).length = 3 := rfl

/-- FX55 transfers as many bytes as it names registers (R291). -/
@[simp] theorem State.length_lowRegs (s : State) (x : Nibble) : (s.lowRegs x).length = transferCount x := by
  have hx := x.isLt
  simp only [State.lowRegs, transferCount, List.length_take, Vector.length_toList]
  omega

/-- The registers FX65's footprint names are V0..V[x] (R292). -/
theorem mem_lowNibbles (x r : Nibble) (h : r.toNat ≤ x.toNat) :
    r ∈ (List.range (transferCount x)).map (BitVec.ofNat 4) :=
  List.mem_map.mpr ⟨r.toNat, List.mem_range.mpr (Nat.lt_succ_of_le h), by simp⟩

/-- What a store of `bs` at I writes lies in the addresses its footprint names (R63). -/
theorem mem_addresses_of_store {base : Word} {count : Nat} {bs : List Byte} (hlen : bs.length = count)
    (p : Nat) (h1 : base.toNat ≤ p) (h2 : p < base.toNat + bs.length) : p ∈ addresses base count :=
  (mem_addresses base count p).mpr ⟨h1, hlen ▸ h2⟩

section
variable {s t : State}

theorem execCls_frame (h : execCls s = .next t) : Frame (footprint s .cls) s t :=
  of_next_eq h ((Frame.advance s).trans (Frame.setScreen _ _ _ rfl rfl))

theorem execSys_frame {nnn : Addr} (h : execSys nnn s = .next t) : Frame (footprint s (.sys nnn)) s t := by
  unfold execSys at h
  split at h
  next hcall => exact Frame.of_callTo (by simp [footprint, hcall]) (by simp [footprint, hcall]) h
  · exact of_next_eq h (Frame.advance s)

theorem execRnd_frame {x : Nibble} {nn : Byte} (h : execRnd x nn s = .next t) :
    Frame (footprint s (.rnd x nn)) s t :=
  (Frame.setDraws s _ rfl).trans (Frame.of_writeV (List.mem_singleton_self x) h)

theorem execDrw_frame {x y n : Nibble} (h : execDrw x y n s = .next t) :
    Frame (footprint s (.drw x y n)) s t :=
  Frame.of_ite_raise rfl
    (fun _ => ((Frame.advance s).trans (Frame.setScreen _ _ _ rfl rfl)).trans
      (Frame.setV _ _ (List.mem_singleton_self vf))) h

theorem execLdBVx_frame {x : Nibble} (h : execLdBVx x s = .next t) : Frame (footprint s (.ldBVx x)) s t :=
  Frame.of_ite_raise rfl
    (fun _ => (Frame.advance s).trans (Frame.writeBytes _ (mem_addresses_of_store (length_bcdDigits _)))) h

theorem execLdMemVx_frame {x : Nibble} (h : execLdMemVx x s = .next t) :
    Frame (footprint s (.ldMemVx x)) s t :=
  Frame.of_ite_raise rfl
    (fun _ => ((Frame.advance s).trans
      (Frame.writeBytes _ (mem_addresses_of_store (s.length_lowRegs x)))).trans
      (Frame.incrementIndex _ x fun hinc => by simpa [footprint] using hinc)) h

theorem execLdVxMem_frame {x : Nibble} (h : execLdVxMem x s = .next t) :
    Frame (footprint s (.ldVxMem x)) s t :=
  Frame.of_ite_raise rfl
    (fun _ => ((Frame.advance s).trans (Frame.loadLowRegs _ (mem_lowNibbles x))).trans
      (Frame.incrementIndex _ x fun hinc => by simpa [footprint] using hinc)) h

/-- R42: every instruction stays inside its footprint. -/
theorem exec_frame (i : Instr) (h : exec i s = .next t) : Frame (footprint s i) s t := by
  cases i with
  | cls => exact execCls_frame h
  | ret => exact Frame.of_execRet rfl rfl h
  | sys nnn => exact execSys_frame h
  | jp nnn | seImm x nn | sneImm x nn | seReg x y | sneReg x y | jpV0 nnn =>
    exact of_next_eq h (Frame.setPc s _)
  | call nnn => exact Frame.of_callTo rfl rfl h
  | ldImm x nn | addImm x nn | ldReg x y | or x y | and x y | xor x y | ldVxDt x =>
    exact Frame.of_writeV (List.mem_singleton_self x) h
  | addReg x y | sub x y | shr x y | subn x y | shl x y =>
    exact Frame.of_writeVAndFlag (by simp [footprint]) (by simp [footprint]) h
  | ldI nnn | addIVx x | ldFVx x => exact of_next_eq h ((Frame.advance s).trans (Frame.setI _ _ rfl))
  | rnd x nn => exact execRnd_frame h
  | drw x y n => exact execDrw_frame h
  | skp x | sknp x => exact Frame.of_skipOnKey rfl h
  | ldVxK x => exact of_next_eq h ((Frame.advance s).trans (Frame.setMode _ _ rfl))
  | ldDtVx x => exact of_next_eq h ((Frame.advance s).trans (Frame.setDt _ _ rfl))
  | ldStVx x => exact of_next_eq h ((Frame.advance s).trans (Frame.setSt _ _ rfl))
  | ldBVx x => exact execLdBVx_frame h
  | ldMemVx x => exact execLdMemVx_frame h
  | ldVxMem x => exact execLdVxMem_frame h

end

/-- Settles O19: each meaning is a chain of state operations, and each operation stays inside the footprint. -/
theorem instructionsWriteOnlyTheirFootprint : Obligations.InstructionsWriteOnlyTheirFootprint :=
  fun i _ _ h => exec_frame i h

end Sys2Proof.Machine
end

section
/-! The frame of a step, the induction over runs of transactions, and the configuration along a run. -/

namespace Sys2Proof.Machine

/-! ### Frames of the step -/

/-- A wider footprint: the step's own output `drewLastStep` beside what the instruction writes (R331). -/
theorem Frame.withDrew {w : Footprint} {s t : State} (h : Frame w s t) : Frame { w with drew := true } s t :=
  { h with drew := nofun }

theorem Frame.beginStep {w : Footprint} (s : State) (hw : w.drew = true) : Frame w s s.beginStep :=
  Frame.setDrewLastStep s false hw

/-- R152: a step that fetched `i` writes the footprint of `i` and `drewLastStep`. -/
theorem step_frame_of_instr {s t : State} {i : Instr} (hm : s.mode = .running) (hf : s.fetch = .instr i)
    (h : step s = .next t) : Frame { footprint s i with drew := true } s t := by
  rw [step_instr s i hm hf] at h
  have hfoot : footprint s.beginStep i = footprint s i := rfl
  exact (Frame.beginStep s rfl).trans (hfoot ▸ exec_frame i h).withDrew

/-- R143, R146: a step that fetched no instruction writes the mode and `drewLastStep`. -/
theorem step_frame_of_no_instr {s t : State} (hm : s.mode = .running) (hf : ∀ i, s.fetch ≠ .instr i)
    (h : step s = .next t) : Frame { mode := true, drew := true } s t := by
  refine (Frame.beginStep s rfl).trans ?_
  rcases step_cases h with ⟨hidle, -⟩ | ⟨-, -, hr⟩ | ⟨-, op, -, hr⟩ | ⟨-, i, hi, -⟩
  · exact absurd hm hidle
  · exact Frame.of_raise rfl hr
  · exact Frame.of_raise rfl hr
  · exact absurd hi (hf i)

/-- Settles O20: the fetch decides which of the two frames the step has. -/
theorem stepsWriteOnlyTheFetchedFootprint : Obligations.StepsWriteOnlyTheFetchedFootprint := by
  intro s t hm h
  refine ⟨fun i hd hpc => ?_, fun hno => ?_⟩
  · exact step_frame_of_instr hm ((s.fetch_eq_instr i).mpr ⟨hpc, (decode_eq_ok _ i).mp hd⟩) h
  · refine step_frame_of_no_instr hm (fun i hi => ?_) h
    obtain ⟨hpc, hd⟩ := (s.fetch_eq_instr i).mp hi
    rcases hno with hno | hno
    · exact hno i ((decode_eq_ok _ i).mpr hd)
    · omega

/-! ### Runs of transactions -/

/-- The inversion of a nonempty run: its first transaction answers, and the rest runs from there. -/
theorem runTransactions_cons_eq_next {u : Transaction} {ts : List Transaction} {s t : State}
    (h : runTransactions (u :: ts) s = .next t) :
    ∃ v, u.apply s = .next v ∧ runTransactions ts v = .next t := by
  rw [runTransactions] at h
  split at h
  next v hv => exact ⟨v, hv, h⟩
  · exact nomatch h
  · exact nomatch h

/-- What every transaction of a run keeps, the run keeps. -/
theorem runTransactions_keeps (P : State → Prop) {ts : List Transaction} :
    (∀ u ∈ ts, ∀ s t, P s → u.apply s = .next t → P t) →
    ∀ {s t : State}, P s → runTransactions ts s = .next t → P t := by
  induction ts with
  | nil => exact fun _ s t hs h => of_next_eq h hs
  | cons u ts ih =>
    intro hkeep s t hs h
    obtain ⟨v, hu, hrest⟩ := runTransactions_cons_eq_next h
    obtain ⟨hfirst, hlater⟩ := List.forall_mem_cons.mp hkeep
    exact ih hlater (hfirst s v hs hu) hrest

/-! ### The configuration (R40) -/

theorem step_cfg {s t : State} (h : step s = .next t) : t.cfg = s.cfg := by
  rcases step_cases h with ⟨-, rfl⟩ | ⟨-, -, hr⟩ | ⟨-, op, -, hr⟩ | ⟨-, i, -, he⟩
  · rfl
  · have hframe : Frame { mode := true } s.beginStep t := Frame.of_raise rfl hr
    exact hframe.config
  · have hframe : Frame { mode := true } s.beginStep t := Frame.of_raise rfl hr
    exact hframe.config
  · exact (exec_frame i he).config

@[simp] theorem State.keyDown_cfg (s : State) (k : Nibble) : (s.keyDown k).cfg = s.cfg := by
  unfold State.keyDown
  split <;> rfl

/-- A ROM load leaves the state it was given, or that state with the ROM written (R315, R328). -/
theorem apply_loadRom_cases {rom : List Byte} {s t : State}
    (h : (Transaction.loadRom rom).apply s = .next t) :
    t = s ∨ rom.length ≤ maxRomLength ∧ t = s.writeBytes programBase rom := by
  simp only [Transaction.apply, State.loadRom] at h
  by_cases hlen : rom.length > maxRomLength
  · rw [if_pos hlen] at h
    exact .inl (Host.Outcome.next.inj h).symm
  · rw [if_neg hlen] at h
    exact .inr ⟨Nat.le_of_not_gt hlen, (Host.Outcome.next.inj h).symm⟩

theorem Transaction.apply_cfg (u : Transaction) {s t : State} (h : u.apply s = .next t) : t.cfg = s.cfg := by
  have of_next {r : State} : (.next r : Result) = .next t → r.cfg = s.cfg → t.cfg = s.cfg :=
    @of_next_eq (fun r => r.cfg = s.cfg) r t
  cases u with
  | step => exact step_cfg h
  | tick => exact of_next h s.tick_cfg
  | keyDown k => exact of_next h (s.keyDown_cfg k)
  | keyUp k => exact of_next h (s.keyUp_cfg k)
  | loadRom rom =>
    rcases apply_loadRom_cases h with rfl | ⟨-, rfl⟩
    · rfl
    · exact s.writeBytes_cfg programBase rom
  | reset => exact of_next h rfl

/-- Settles O54: every transaction keeps the configuration, so every run does. -/
theorem configurationNeverChanges : Obligations.ConfigurationNeverChanges :=
  fun _ s _ h =>
    runTransactions_keeps (fun r => r.cfg = s.cfg)
      (fun u _ _ _ hc ha => (u.apply_cfg ha).trans hc) rfl h

/-! ### A call and its return (R180, R183) -/

/-- R183 with room on the stack. -/
theorem exec_call_of_lt {nnn : Addr} {s : State} (h : s.sp < 16) :
    exec (.call nnn) s = .next { s with stack := (s.pc + 2#16) :: s.stack, pc := nnn.setWidth 16 } :=
  (callTo_eq (encode (.call nnn)) nnn s).trans (if_pos h)

/-- R180 with an entry on the stack. -/
theorem exec_ret_of_cons {s : State} {a : Word} {rest : List Word} (h : s.stack = a :: rest) :
    exec .ret s = .next { s with stack := rest, pc := a } :=
  (execRet_eq s).trans (by rw [h])

/-- Settles O26: the call pushes the address after it, and the return pops that entry wherever it stands. -/
theorem returnUndoesACall : Obligations.ReturnUndoesACall :=
  fun _ _ _ hsp => ⟨_, _, exec_call_of_lt hsp, exec_ret_of_cons rfl, rfl, rfl⟩

end Sys2Proof.Machine
end

section
/-! The values of the state after construction and after a reset (R45, R360). -/

namespace Sys2Proof.Machine

/-- R66: the font stands at fontBase. -/
theorem resetByte_font (c : Config) (k : Fin 80) :
    resetByte c (c.fontBase.toNat + k.val) = c.fontData[k.val] := by
  simp [resetByte]

/-- R45: every byte outside the font is 0. -/
theorem resetByte_outside_font (c : Config) (a : Nat)
    (h : a < c.fontBase.toNat ∨ c.fontBase.toNat + 80 ≤ a) : resetByte c a = 0#8 := by
  unfold resetByte
  split
  · rw [Vector.getElem?_eq_none (by omega), Option.getD_none]
  · rfl

/-- Settles O6: construction and a reset differ in the draw counter only, and an unlisted address reads as
its reset byte. -/
theorem resetGivesEveryStateItsInitialValue : Obligations.ResetGivesEveryStateItsInitialValue := by
  intro s r hr
  obtain ⟨n, rfl⟩ : ∃ n, r = { State.construct s.cfg with draws := n } := by
    rcases List.mem_pair.mp hr with rfl | rfl
    · exact ⟨0, rfl⟩
    · exact ⟨s.draws, rfl⟩
  refine ⟨fun x => ?_, rfl, rfl, rfl, rfl, rfl, fun k => ?_, fun x y => ?_, rfl, rfl, rfl, rfl,
    resetByte_font s.cfg, resetByte_outside_font s.cfg⟩
  · exact Vector.getElem_replicate x.isLt
  · exact Vector.getElem_replicate k.isLt
  · exact Framebuffer.pixel_cleared x y

end Sys2Proof.Machine
end

section
/-! A decoded word is the word of its instruction (R114). -/

namespace Sys2Proof

theorem encode_of_decodeGroup0 {op : Word} (h0 : opN3 op = 0x0#4) : encode (decodeGroup0 op) = op := by
  unfold decodeGroup0
  split_ifs with hcls hret
  · exact hcls.symm
  · exact hret.symm
  · exact (congrArg (encodeAddr · (opNNN op)) h0.symm).trans (encodeAddr_fields op)

theorem encode_of_decodeGroup8 {x y n : Nibble} {i : Instr} (h : decodeGroup8 x y n = some i) :
    encode i = encodeRegReg 0x8#4 x y n := by
  unfold decodeGroup8 at h
  split at h
  case h_10 => exact nomatch h
  all_goals exact Option.some.inj h ▸ rfl

theorem encode_of_decodeGroupE {x : Nibble} {nn : Byte} {i : Instr} (h : decodeGroupE x nn = some i) :
    encode i = encodeRegImm 0xE#4 x nn := by
  unfold decodeGroupE at h
  split at h
  case h_3 => exact nomatch h
  all_goals exact Option.some.inj h ▸ rfl

theorem encode_of_decodeGroupF {x : Nibble} {nn : Byte} {i : Instr} (h : decodeGroupF x nn = some i) :
    encode i = encodeRegImm 0xF#4 x nn := by
  unfold decodeGroupF at h
  split at h
  case h_10 => exact nomatch h
  all_goals exact Option.some.inj h ▸ rfl

/-- R114: the fields of a word determine it, so the instruction it decodes to has that word. -/
theorem encode_of_decodeTag {op : Word} {i : Instr} (h : decodeTag op = some i) : encode i = op := by
  have haddr := encodeAddr_fields op
  have himm := encodeRegImm_fields op
  have hreg := encodeRegReg_fields op
  unfold decodeTag at h
  split at h
  case h_1 h0 => exact Option.some.inj h ▸ encode_of_decodeGroup0 h0
  case h_2 hc | h_3 hc | h_11 hc | h_12 hc =>
    rw [hc] at haddr
    exact Option.some.inj h ▸ haddr
  case h_4 hc | h_5 hc | h_7 hc | h_8 hc | h_13 hc =>
    rw [hc] at himm
    exact Option.some.inj h ▸ himm
  case h_6 hc | h_10 hc =>
    split at h
    next hn =>
      rw [hc, hn] at hreg
      exact Option.some.inj h ▸ hreg
    · exact nomatch h
  case h_9 h8 => exact (encode_of_decodeGroup8 h).trans (h8 ▸ hreg)
  case h_14 hc =>
    rw [hc] at hreg
    exact Option.some.inj h ▸ hreg
  case h_15 hE => exact (encode_of_decodeGroupE h).trans (hE ▸ himm)
  case h_16 hF => exact (encode_of_decodeGroupF h).trans (hF ▸ himm)
  case h_17 => exact nomatch h

end Sys2Proof
end

section
/-! The invariant under every state operation, and from there under every instruction, step and transaction. -/

namespace Sys2Proof.Machine

/-! ### The bounds of PC (R33) -/

theorem State.toNat_pcNext {s : State} (h : s.pc.toNat ≤ 0xFFE) : s.pcNext.toNat = s.pc.toNat + 2 := by
  unfold State.pcNext
  bv_omega

theorem State.toNat_skipIf_pc_le {s : State} (h : s.pc.toNat ≤ 0xFFE) (c : Bool) :
    (s.skipIf c).pc.toNat ≤ 0x1002 := by
  have hnext := State.toNat_pcNext h
  rw [State.skipIf_pc]
  split <;> bv_omega

theorem toNat_zextAddr (nnn : Addr) : (zextAddr nnn).toNat = nnn.toNat :=
  BitVec.toNat_setWidth_of_le (by decide)

/-- A 12-bit target is a PC the invariant allows. -/
theorem toNat_zextAddr_le (nnn : Addr) : (zextAddr nnn).toNat ≤ 0x10FE := by
  have hnnn := nnn.isLt
  rw [toNat_zextAddr]
  omega

theorem toNat_zextByte (b : Byte) : (zextByte b).toNat = b.toNat :=
  BitVec.toNat_setWidth_of_le (by decide)

/-- R188: the exact sum is at most 0xFFF + 0xFF. -/
theorem State.toNat_offsetTarget_le (s : State) (nnn : Addr) : (s.offsetTarget nnn).toNat ≤ 0x10FE := by
  have h1 := nnn.isLt
  have h2 := (s.getV 0#4).isLt
  rw [State.offsetTarget, BitVec.toNat_add, toNat_zextAddr, toNat_zextByte]
  omega

/-! ### The state operations -/

section
variable {s : State}

/-- No clause reads V, I, the timers, the keypad, the pixels or the draw counter. -/
theorem State.Inv.withData (hs : s.Inv) (v : Vector Byte 16) (i : Word) (dt st : Byte) (key : Vector Bool 16)
    (fb : Framebuffer) (n : Nat) :
    State.Inv { s with v := v, i := i, dt := dt, st := st, key := key, fb := fb, draws := n } :=
  { hs with }

theorem State.Inv.setV (hs : s.Inv) (x : Nibble) (b : Byte) : (s.setV x b).Inv := hs.withData ..

theorem State.Inv.setI (hs : s.Inv) (a : Word) : (s.setI a).Inv := hs.withData ..

theorem State.Inv.writeResultAndFlag (hs : s.Inv) (x : Nibble) (rf : Byte × Byte) :
    (s.writeResultAndFlag x rf).Inv :=
  s.writeResultAndFlag_eq x rf ▸ hs.withData ..

theorem State.Inv.loadLowRegs (hs : s.Inv) (x : Nibble) : (s.loadLowRegs x).Inv := hs.withData ..

theorem State.Inv.incrementIndex (hs : s.Inv) (x : Nibble) : (s.incrementIndex x).Inv :=
  s.incrementIndex_eq x ▸ hs.withData ..

/-- A store inside the address space keeps the memory canonical (R60, R64). -/
theorem State.Inv.writeBytes (hs : s.Inv) {a : Nat} {bs : List Byte} (h : a + bs.length ≤ memorySize) :
    (s.writeBytes a bs).Inv := by
  have hmem := State.memoryWf_writeBytes bs s a hs.memory h
  rw [State.writeBytes_eq bs s a] at hmem ⊢
  exact { hs with memory := hmem }

/-- A mode entered with `drewLastStep` false, and with a sound record at PC when it is Halted. -/
theorem State.Inv.enterMode (hs : s.Inv) (hd : s.drewLastStep = false) {m : Mode}
    (hm : ∀ e, m = .halted e → e.pc = s.pc ∧ e.Sound) : State.Inv { s with mode := m } :=
  { hs with drew := fun _ => hd, record := hm }

theorem State.Inv.await (hs : s.Inv) (hd : s.drewLastStep = false) (x : Nibble) :
    State.Inv { s with mode := .awaitingKey x } :=
  hs.enterMode hd nofun

theorem State.Inv.beginStep (hs : s.Inv) : s.beginStep.Inv :=
  { hs with drew := fun _ => rfl }

/-- In Running, the invariant bounds PC and the stack, and asks nothing of `drewLastStep` (R33, R34). -/
theorem State.Inv.setStackAndPc (hs : s.Inv) (hm : s.mode = .running) {l : List Word} {p : Word}
    (hlen : l.length ≤ 16) (hl : ∀ a ∈ l, a.toNat ≤ 0x1000) (hp : p.toNat ≤ 0x10FE) :
    State.Inv { s with stack := l, pc := p } :=
  { hs with
    stackDepth := hlen
    stackValues := hl
    pcBound := hp
    record := fun _ he => nomatch hm.symm.trans he }

theorem State.Inv.setPc (hs : s.Inv) (hm : s.mode = .running) {p : Word} (hp : p.toNat ≤ 0x10FE) :
    State.Inv { s with pc := p } :=
  hs.setStackAndPc hm hs.stackDepth hs.stackValues hp

theorem State.Inv.advance (hs : s.Inv) (hm : s.mode = .running) (hpc : s.pc.toNat ≤ 0xFFE) : s.advance.Inv :=
  hs.setPc hm (by rw [State.toNat_pcNext hpc]; omega)

theorem State.Inv.skipIf (hs : s.Inv) (hm : s.mode = .running) (hpc : s.pc.toNat ≤ 0xFFE) (c : Bool) :
    (s.skipIf c).Inv :=
  hs.setPc hm (le_trans (State.toNat_skipIf_pc_le hpc c) (by decide))

/-- The two outputs of a display instruction, in Running (R331). -/
theorem State.Inv.setScreen (hs : s.Inv) (hm : s.mode = .running) (fb : Framebuffer) (b : Bool) :
    State.Inv { s with fb := fb, drewLastStep := b } :=
  { hs with drew := fun h => absurd hm h }

end

theorem State.Inv.of_raise {s t : State} (hs : s.Inv) (hd : s.drewLastStep = false) {k : ErrorKind}
    {op : Option Word} (h : raise k op s = .next t)
    (hrec : ErrorRecord.Sound { kind := k, opcode := op, pc := s.pc }) : t.Inv :=
  of_next_eq h (hs.enterMode hd fun _ he => Mode.halted.inj he ▸ ⟨rfl, hrec⟩)

/-! ### The operations the meanings share -/

/-- What an instruction finds when a step runs it (R152): the invariant in Running, with the fetch address in
range and `drewLastStep` cleared. -/
structure State.Fetching (s : State) : Prop where
  inv     : s.Inv
  running : s.mode = .running
  inRange : s.pc.toNat ≤ 0xFFE
  cleared : s.drewLastStep = false

theorem State.Inv.fetching {s : State} (hs : s.Inv) (hm : s.mode = .running) (hpc : s.pc.toNat ≤ 0xFFE) :
    s.beginStep.Fetching where
  inv := hs.beginStep
  running := hm
  inRange := hpc
  cleared := rfl

section
variable {s t : State}

theorem State.Fetching.advance (hs : s.Fetching) : s.advance.Inv := hs.inv.advance hs.running hs.inRange

theorem State.Fetching.skipIf (hs : s.Fetching) (c : Bool) : (s.skipIf c).Inv :=
  hs.inv.skipIf hs.running hs.inRange c

theorem State.Fetching.of_writeV (hs : s.Fetching) {x : Nibble} {b : Byte} (h : writeV x b s = .next t) :
    t.Inv :=
  of_next_eq h (hs.advance.setV x b)

theorem State.Fetching.of_writeVAndFlag (hs : s.Fetching) {x : Nibble} {rf : Byte × Byte}
    (h : writeVAndFlag x rf s = .next t) : t.Inv :=
  of_next_eq h (hs.advance.writeResultAndFlag x rf)

/-- A checked operation keeps the invariant when the operation does and its error's record is sound. -/
theorem State.Fetching.of_ite_raise (hs : s.Fetching) {c : Prop} [Decidable c] {u : State} {k : ErrorKind}
    {op : Option Word} (h : (if c then .next u else raise k op s) = .next t)
    (hrec : ErrorRecord.Sound { kind := k, opcode := op, pc := s.pc }) (hu : c → u.Inv) : t.Inv := by
  split at h
  next hc => exact of_next_eq h (hu hc)
  · exact hs.inv.of_raise hs.cleared h hrec

/-- The return address of a call at most 0xFFE is at most 0x1000 (R34, D33). -/
theorem State.Fetching.of_callTo (hs : s.Fetching) {op : Word} {nnn : Addr}
    (hop : decodeTag op = some (.call nnn) ∨ decodeTag op = some (.sys nnn))
    (h : callTo op nnn s = .next t) : t.Inv := by
  rw [callTo_eq] at h
  refine hs.of_ite_raise h ⟨⟨nnn, hop⟩, hs.inRange⟩ fun hroom => ?_
  have hret : s.pcNext.toNat ≤ 0x1000 := by
    have hpc := hs.inRange
    rw [State.toNat_pcNext hpc]
    omega
  have hentries : ∀ a ∈ s.pcNext :: s.stack, a.toNat ≤ 0x1000 :=
    List.forall_mem_cons.mpr ⟨hret, hs.inv.stackValues⟩
  exact hs.inv.setStackAndPc hs.running (Nat.succ_le_of_lt hroom) hentries (toNat_zextAddr_le nnn)

theorem State.Fetching.of_execRet (hs : s.Fetching) (h : execRet s = .next t) : t.Inv := by
  rw [execRet_eq] at h
  have hdepth : s.stack.length ≤ 16 := hs.inv.stackDepth
  have hentries := hs.inv.stackValues
  split at h
  · exact hs.inv.of_raise hs.cleared h ⟨rfl, hs.inRange⟩
  next a rest hstack =>
    rw [hstack, List.length_cons] at hdepth
    rw [hstack, List.forall_mem_cons] at hentries
    obtain ⟨ha, hrest⟩ := hentries
    exact of_next_eq h (hs.inv.setStackAndPc hs.running (by omega) hrest (by omega))

theorem State.Fetching.of_skipOnKey (hs : s.Fetching) {b : Bool} {x : Nibble}
    (h : skipOnKey b x s = .next t) : t.Inv := by
  rw [skipOnKey_eq] at h
  split at h
  · exact of_next_eq h (hs.skipIf _)
  · exact of_next_eq h (hs.inv.enterMode hs.cleared nofun)

/-- A passed `checkRange` of at least one byte leaves room for the store (R64). -/
theorem store_fits {base : Word} {bs : List Byte} {count : Nat} (hlen : bs.length = count) (hcount : count ≠ 0)
    (hr : rangeOk base count = true) : base.toNat + bs.length ≤ memorySize :=
  hlen ▸ ((rangeOk_iff base count).mp hr).resolve_left hcount

/-! ### The instructions -/

theorem State.Fetching.of_execSys (hs : s.Fetching) {nnn : Addr}
    (hop : decodeTag (encode (.sys nnn)) = some (.sys nnn)) (h : execSys nnn s = .next t) : t.Inv := by
  unfold execSys at h
  split at h
  · exact hs.of_callTo (.inr hop) h
  · exact of_next_eq h hs.advance

theorem State.Fetching.of_execDrw (hs : s.Fetching) {x y n : Nibble}
    (hop : decodeTag (encode (.drw x y n)) = some (.drw x y n)) (h : execDrw x y n s = .next t) : t.Inv :=
  hs.of_ite_raise h ⟨⟨x, y, n, .inl hop⟩, hs.inRange⟩
    fun _ => (hs.advance.setScreen hs.running _ _).setV _ _

theorem State.Fetching.of_execLdBVx (hs : s.Fetching) {x : Nibble}
    (hop : decodeTag (encode (.ldBVx x)) = some (.ldBVx x)) (h : execLdBVx x s = .next t) : t.Inv :=
  hs.of_ite_raise h ⟨⟨x, 0#4, 0#4, .inr (.inl hop)⟩, hs.inRange⟩
    fun hr => hs.advance.writeBytes (store_fits (length_bcdDigits _) (by decide) hr)

theorem State.Fetching.of_execLdMemVx (hs : s.Fetching) {x : Nibble}
    (hop : decodeTag (encode (.ldMemVx x)) = some (.ldMemVx x)) (h : execLdMemVx x s = .next t) : t.Inv :=
  hs.of_ite_raise h ⟨⟨x, 0#4, 0#4, .inr (.inr (.inl hop))⟩, hs.inRange⟩
    fun hr => (hs.advance.writeBytes
      (store_fits (s.length_lowRegs x) (Nat.succ_ne_zero _) hr)).incrementIndex x

theorem State.Fetching.of_execLdVxMem (hs : s.Fetching) {x : Nibble}
    (hop : decodeTag (encode (.ldVxMem x)) = some (.ldVxMem x)) (h : execLdVxMem x s = .next t) : t.Inv :=
  hs.of_ite_raise h ⟨⟨x, 0#4, 0#4, .inr (.inr (.inr hop))⟩, hs.inRange⟩
    fun _ => (hs.advance.loadLowRegs x).incrementIndex x

/-- Every fetched instruction keeps the invariant. That its word decodes to it makes the record of its own
error sound (R310 to R314). -/
theorem State.Fetching.exec_inv (hs : s.Fetching) {i : Instr} (hop : decodeTag (encode i) = some i)
    (h : exec i s = .next t) : t.Inv := by
  cases i with
  | cls => exact of_next_eq h (hs.advance.setScreen hs.running _ _)
  | ret => exact hs.of_execRet h
  | sys nnn => exact hs.of_execSys hop h
  | jp nnn => exact of_next_eq h (hs.inv.setPc hs.running (toNat_zextAddr_le nnn))
  | jpV0 nnn => exact of_next_eq h (hs.inv.setPc hs.running (s.toNat_offsetTarget_le nnn))
  | call nnn => exact hs.of_callTo (.inl hop) h
  | seImm x nn | sneImm x nn | seReg x y | sneReg x y => exact of_next_eq h (hs.skipIf _)
  | ldImm x nn | addImm x nn | ldReg x y | or x y | and x y | xor x y | ldVxDt x => exact hs.of_writeV h
  | addReg x y | sub x y | shr x y | subn x y | shl x y => exact hs.of_writeVAndFlag h
  | ldI nnn | addIVx x | ldFVx x => exact of_next_eq h (hs.advance.setI _)
  | rnd x nn | ldDtVx x | ldStVx x => exact of_next_eq h (hs.advance.withData ..)
  | drw x y n => exact hs.of_execDrw hop h
  | skp x | sknp x => exact hs.of_skipOnKey h
  | ldVxK x => exact of_next_eq h (hs.advance.await hs.cleared x)
  | ldBVx x => exact hs.of_execLdBVx hop h
  | ldMemVx x => exact hs.of_execLdMemVx hop h
  | ldVxMem x => exact hs.of_execLdVxMem hop h

end

/-! ### The step and the transactions -/

theorem State.Inv.step {s t : State} (hs : s.Inv) (h : step s = .next t) : t.Inv := by
  rcases step_cases h with ⟨-, rfl⟩ | ⟨-, hf, hr⟩ | ⟨-, op, hf, hr⟩ | ⟨hm, i, hf, he⟩
  · exact hs
  · have hpc := s.fetch_eq_outOfRange.mp hf
    exact hs.beginStep.of_raise rfl hr hpc
  · obtain ⟨hpc, hd, -⟩ := (s.fetch_eq_unknown op).mp hf
    exact hs.beginStep.of_raise rfl hr ⟨hd, hpc⟩
  · obtain ⟨hpc, hd⟩ := (s.fetch_eq_instr i).mp hf
    have hop : decodeTag (encode i) = some i := by rw [encode_of_decodeTag hd, hd]
    exact (hs.fetching hm hpc).exec_inv hop he

/-- Settles O8: the invariant is kept by a failed fetch or decode, and by every instruction the step runs. -/
theorem stepKeepsTheInvariant : Obligations.StepKeepsTheInvariant :=
  fun _ _ hs h => hs.step h

/-- R327: the key that ends a wait goes to its register, and `drewLastStep` was already false. -/
theorem State.Inv.keyDown {s : State} (hs : s.Inv) (k : Nibble) : (s.keyDown k).Inv := by
  have hkey : State.Inv { s with key := s.key.set k.toNat true } := hs.withData ..
  unfold State.keyDown
  split
  next x hm =>
    have hd : s.drewLastStep = false := hs.drew (by rw [hm]; exact nofun)
    exact (hkey.setV x _).enterMode hd nofun
  all_goals exact hkey

/-- R361: a reset is the construction but for the draw counter. -/
theorem State.Inv.restart {s : State} (hs : s.Inv) : s.restart.Inv :=
  (State.construct_inv s.cfg hs.config).withData ..

theorem Transaction.apply_inv (u : Transaction) {s t : State} (hs : s.Inv) (h : u.apply s = .next t) : t.Inv := by
  cases u with
  | step => exact hs.step h
  | tick => exact of_next_eq h (hs.withData ..)
  | keyDown k => exact of_next_eq h (hs.keyDown k)
  | keyUp k => exact of_next_eq h (hs.withData ..)
  | loadRom rom =>
    rcases apply_loadRom_cases h with rfl | ⟨hlen, rfl⟩
    · exact hs
    · exact hs.writeBytes (by simp only [maxRomLength, programBase, memorySize] at *; omega)
  | reset => exact of_next_eq h hs.restart

/-- Settles O9: every transaction keeps the invariant, so every run does. -/
theorem transactionsKeepTheInvariant : Obligations.TransactionsKeepTheInvariant :=
  fun _ _ _ hs h => runTransactions_keeps State.Inv (fun u _ _ _ hs ha => u.apply_inv hs ha) hs h

end Sys2Proof.Machine
end

section
/-! The decoder and the encoder: the fields as slices, the round trips and the rejected words
(spec/30_encoding.md). -/

namespace Sys2Proof

/-! ### The decoded fields (R101 to R103) -/

/-- R102: a nibble is a 4-bit slice. -/
theorem nibble_eq_slice (op : Word) {k : Nat} (hk : k ≤ 3) :
    nibble op k = .ok (op.extractLsb' (4 * k) 4).toNat := by
  rw [nibble, if_pos hk, Nat.and_two_pow_sub_one_eq_mod _ 4, BitVec.extractLsb'_toNat]

theorem nibble_invalidIndex (op : Word) {k : Nat} (hk : 3 < k) : nibble op k = .error .invalidIndex :=
  if_neg (Nat.not_le.mpr hk)

/-- R103: the low bits are a slice from bit 0. -/
theorem lowBits_eq_slice (op : Word) {k : Nat} (hk : k ≤ 4) :
    lowBits op k = .ok (op.extractLsb' 0 (4 * k)).toNat := by
  rw [lowBits, if_pos hk, BitVec.extractLsb'_toNat, Nat.shiftRight_zero]

theorem toNat_opN3 (op : Word) : (opN3 op).toNat = op.toNat / 4096 % 16 := toNat_slice op 12 4

theorem toNat_opX (op : Word) : (opX op).toNat = op.toNat / 256 % 16 := toNat_slice op 8 4

theorem toNat_opY (op : Word) : (opY op).toNat = op.toNat / 16 % 16 := toNat_slice op 4 4

theorem toNat_opN (op : Word) : (opN op).toNat = op.toNat % 16 := by
  rw [opN, toNat_slice]
  omega

theorem toNat_opNN (op : Word) : (opNN op).toNat = op.toNat % 256 := by
  rw [opNN, toNat_slice]
  omega

theorem toNat_opNNN (op : Word) : (opNNN op).toNat = op.toNat % 4096 := by
  rw [opNNN, toNat_slice]
  omega

/-- Settles O1: the fields are slices of the word, and the overlaps are arithmetic on its digits. -/
theorem opcodeFieldsAreTheSlicesOfTheWord : Obligations.OpcodeFieldsAreTheSlicesOfTheWord := by
  intro op
  refine ⟨nibble_eq_slice op (k := 3) le_rfl, nibble_eq_slice op (k := 2) (by decide),
    nibble_eq_slice op (k := 1) (by decide), nibble_eq_slice op (k := 0) (by decide),
    lowBits_eq_slice op (k := 2) (by decide), lowBits_eq_slice op (k := 3) (by decide),
    ?_, ?_, fun _ hk => nibble_invalidIndex op hk⟩
  · rw [toNat_opNN, toNat_opY, toNat_opN]
    omega
  · rw [toNat_opNNN, toNat_opX, toNat_opNN]
    omega

/-- Settles O2: each word is decoded by evaluation. -/
theorem knownWordsDecodeAsListed : Obligations.KnownWordsDecodeAsListed :=
  ⟨rfl, rfl, rfl, rfl, rfl, rfl, rfl, rfl, rfl, rfl, rfl, rfl, rfl⟩

/-! ### The round trips (R105 to R111, R114) -/

/-- R107: the one check of well-formedness. -/
theorem wellFormed_sys (nnn : Addr) :
    (Instr.sys nnn).wellFormed = true ↔ nnn ≠ 0x0E0#12 ∧ nnn ≠ 0x0EE#12 := by
  simp [Instr.wellFormed]

theorem encodeAddr_injective (c : Nibble) : Function.Injective (encodeAddr c) :=
  Function.LeftInverse.injective (opNNN_encodeAddr c)

theorem decodeGroup0_encodeAddr {nnn : Addr} (h : (Instr.sys nnn).wellFormed = true) :
    decodeGroup0 (encodeAddr 0x0#4 nnn) = .sys nnn := by
  obtain ⟨hcls, hret⟩ := (wellFormed_sys nnn).mp h
  have hcls' : encodeAddr 0x0#4 nnn ≠ 0x00E0#16 := (encodeAddr_injective 0x0#4).ne hcls
  have hret' : encodeAddr 0x0#4 nnn ≠ 0x00EE#16 := (encodeAddr_injective 0x0#4).ne hret
  rw [decodeGroup0, if_neg hcls', if_neg hret', opNNN_encodeAddr]

/-- R105 to R111: the dispatch finds the tag the encoder wrote, and the fields beside it. -/
theorem decodeTag_encode {i : Instr} (hi : i.wellFormed = true) : decodeTag (encode i) = some i := by
  cases i with
  | cls | ret => rfl
  | sys nnn => simp [encode, decodeTag, decodeGroup0_encodeAddr hi]
  | jp nnn | call nnn | ldI nnn | jpV0 nnn => simp [encode, decodeTag]
  | seImm x nn | sneImm x nn | ldImm x nn | addImm x nn | rnd x nn => simp [encode, decodeTag]
  | seReg x y | sneReg x y | drw x y n => simp [encode, decodeTag]
  | ldReg x y | or x y | and x y | xor x y | addReg x y | sub x y | shr x y | subn x y | shl x y =>
    simp [encode, decodeTag, decodeGroup8]
  | skp x | sknp x => simp [encode, decodeTag, decodeGroupE]
  | ldVxDt x | ldVxK x | ldDtVx x | ldStVx x | addIVx x | ldFVx x | ldBVx x | ldMemVx x | ldVxMem x =>
    simp [encode, decodeTag, decodeGroupF]

/-- Settles O3: each format's fields come back out of the word, and R107 keeps 0NNN off 00E0 and 00EE. -/
theorem decodeOfEncodeIsTheInstruction : Obligations.DecodeOfEncodeIsTheInstruction :=
  fun _ hi => (decode_eq_ok _ _).mpr (decodeTag_encode hi)

/-- R107: the words of the two terms that are no instruction decode to 00E0 and 00EE. -/
theorem wellFormed_of_decodeTag {op : Word} {i : Instr} (h : decodeTag op = some i) :
    i.wellFormed = true := by
  cases i with
  | sys nnn =>
    have hop : decodeTag (encode (.sys nnn)) = some (.sys nnn) := by rw [encode_of_decodeTag h, h]
    rw [wellFormed_sys]
    constructor
    · rintro rfl
      exact absurd hop (by decide)
    · rintro rfl
      exact absurd hop (by decide)
  | _ => rfl

/-- Settles O4: a decoded word is the word of its instruction, and so is none of the two R107 takes out. -/
theorem encodeOfDecodeIsTheWord : Obligations.EncodeOfDecodeIsTheWord := by
  intro op i h
  have htag := (decode_eq_ok op i).mp h
  exact ⟨wellFormed_of_decodeTag htag, encode_of_decodeTag htag⟩

/-! ### The rejected words (R112) -/

/-- R109: the sub-tags of group 8. -/
theorem decodeGroup8_eq_none (x y n : Nibble) :
    decodeGroup8 x y n = none ↔ n.toNat ∈ [0x8, 0x9, 0xA, 0xB, 0xC, 0xD, 0xF] := by
  unfold decodeGroup8
  split
  case h_10 =>
    simp only [imp_false, true_iff, List.mem_cons, List.not_mem_nil, or_false] at *
    bv_omega
  all_goals simp

/-- R110: the sub-tags of group E. -/
theorem decodeGroupE_eq_none (x : Nibble) (nn : Byte) :
    decodeGroupE x nn = none ↔ nn.toNat ∉ [0x9E, 0xA1] := by
  unfold decodeGroupE
  split
  case h_3 => simp_all [← BitVec.toNat_inj]
  all_goals simp

/-- R111: the sub-tags of group F. -/
theorem decodeGroupF_eq_none (x : Nibble) (nn : Byte) :
    decodeGroupF x nn = none ↔ nn.toNat ∉ [0x07, 0x0A, 0x15, 0x18, 0x1E, 0x29, 0x33, 0x55, 0x65] := by
  unfold decodeGroupF
  split
  case h_10 => simp_all [← BitVec.toNat_inj]
  all_goals simp

/-- R106, R112: in every group the tag Unknown is what the group's row of the table of R112 lists. -/
theorem decodeTag_eq_none (op : Word) : decodeTag op = none ↔ Machine.illegalOpcode op.toNat := by
  simp only [Machine.illegalOpcode, ← toNat_opN3, ← toNat_opN, ← toNat_opNN]
  unfold decodeTag
  split
  case h_6 h5 | h_10 h5 => simp [h5, ← BitVec.toNat_inj]
  case h_9 h8 => simp [h8, decodeGroup8_eq_none]
  case h_15 hE => simp [hE, decodeGroupE_eq_none]
  case h_16 hF => simp [hF, decodeGroupF_eq_none]
  case h_17 =>
    exfalso
    simp only [imp_false] at *
    bv_omega
  case h_1 hc | h_2 hc | h_3 hc | h_4 hc | h_5 hc | h_7 hc | h_8 hc | h_11 hc | h_12 hc | h_13 hc |
      h_14 hc => simp [hc]

/-- Settles O5: `decode` rejects where the dispatch has no tag, and that is group by group the table of R112. -/
theorem rejectedWordsAreTheIllegalEncodings : Obligations.RejectedWordsAreTheIllegalEncodings := by
  intro op
  rw [decode_eq_error, ← decodeTag_eq_none, and_iff_left rfl]

end Sys2Proof
end

section
/-! The fetch and the step around an instruction (spec/40_engine.md R140 to R147). -/

namespace Sys2Proof.Machine

/-! ### What a fetch reads (R65, R144) -/

/-- The first byte is the more significant one (R65). -/
theorem toNat_opcodeOfBytes (hi lo : Byte) : (opcodeOfBytes hi lo).toNat = hi.toNat * 256 + lo.toNat := by
  rw [opcodeOfBytes, BitVec.toNat_append, ← Nat.shiftLeft_add_eq_or_of_lt lo.isLt, Nat.shiftLeft_eq]

/-- Settles O12: the fetch joins two bytes big-endian, and the two byte writes are `placeOpcode`. -/
theorem fetchIsBigEndianAndSeesTheLastWrite : Obligations.FetchIsBigEndianAndSeesTheLastWrite :=
  ⟨fun _ => toNat_opcodeOfBytes _ _, fun s op hmem hpc => s.fetchOpcode_placeOpcode op hmem hpc⟩

/-! ### A step in Running (R143, R146, R147, R152) -/

/-- Settles O11: a word at a legal PC that decodes is fetched as its instruction. -/
theorem stepRunsTheDecodedInstruction : Obligations.StepRunsTheDecodedInstruction := by
  intro s i hm hpc hd
  exact step_instr s i hm ((s.fetch_eq_instr i).mpr ⟨hpc, (decode_eq_ok _ i).mp hd⟩)

/-- Settles O14: above 0xFFE the fetch is out of range, and the step raises it before it reads an opcode. -/
theorem fetchBeyondMemoryHalts : Obligations.FetchBeyondMemoryHalts :=
  fun s hm hpc => step_outOfRange s hm (s.fetch_eq_outOfRange.mpr hpc)

/-- Settles O15: a word at a legal PC that does not decode is fetched as unknown, and the step raises it. -/
theorem unknownOpcodeHalts : Obligations.UnknownOpcodeHalts := by
  intro s hm hpc hd
  obtain ⟨htag, -⟩ := (decode_eq_error _ _).mp hd
  exact step_unknown s _ hm ((s.fetch_eq_unknown _).mpr ⟨hpc, htag, rfl⟩)

/-- Settles O16: only Running fetches. -/
theorem idleModesIgnoreSteps : Obligations.IdleModesIgnoreSteps := step_idle

/-! ### The word placed for the fetch -/

/-- A table word decodes through its two bytes as it does as an opcode. -/
theorem decode_of_decodeTableWord {nbits w : Nat} {i : Instr} (h : decodeTableWord nbits w = some i) :
    decode (opcodeOfTableWord nbits w) = .ok i := by
  have hbytes := decodeBytes_bytesOfOpcode (opcodeOfTableWord nbits w) []
  rw [List.append_nil] at hbytes
  rw [decodeTableWord, hbytes] at h
  cases hd : decode (opcodeOfTableWord nbits w) with
  | ok j =>
    rw [hd] at h
    exact congrArg Except.ok (Option.some.inj h)
  | error e =>
    rw [hd] at h
    exact nomatch h

/-- Settles O13: the fetch forms the placed word, and placing it leaves mode and PC. -/
theorem placedWordRunsNext : Obligations.PlacedWordRunsNext := by
  intro s w i hmem hm hpc hw
  have hmode : (s.withFetchWord 16 w).mode = .running := (s.writeBytes_mode _ _).trans hm
  have hpc' : (s.withFetchWord 16 w).pc.toNat ≤ 0xFFE := (s.writeBytes_pc _ _).symm ▸ hpc
  have hop : (s.withFetchWord 16 w).fetchOpcode = opcodeOfTableWord 16 w :=
    s.fetchOpcode_placeOpcode _ hmem hpc
  exact stepRunsTheDecodedInstruction _ i hmode hpc' (hop ▸ decode_of_decodeTableWord hw)

end Sys2Proof.Machine
end

section
/-! Fatal errors: which instruction raises which kind, and that a step enters Halted by `raise` only (R150,
R310 to R314, R318). -/

namespace Sys2Proof.Machine

/-- The kind of fatal error an instruction can raise itself (R312 to R314); `exec_halted` ties it to `exec`. -/
def ownError : Instr → Option ErrorKind
  | .ret => some .stackUnderflow
  | .sys _ | .call _ => some .stackOverflow
  | .drw _ _ _ | .ldBVx _ | .ldMemVx _ | .ldVxMem _ => some .outOfBounds
  | _ => none

/-- The record of an instruction's own error at a legal fetch address is sound. -/
theorem sound_of_ownError {op : Word} {i : Instr} {k : ErrorKind} {pc : Word} (hd : decodeTag op = some i)
    (hk : ownError i = some k) (hpc : pc.toNat ≤ 0xFFE) :
    ErrorRecord.Sound { kind := k, opcode := some op, pc := pc } := by
  cases i <;> cases hk
  case ret => exact ⟨(encode_of_decodeTag hd).symm, hpc⟩
  case sys nnn => exact ⟨⟨nnn, .inr hd⟩, hpc⟩
  case call nnn => exact ⟨⟨nnn, .inl hd⟩, hpc⟩
  case drw x y n => exact ⟨⟨x, y, n, .inl hd⟩, hpc⟩
  case ldBVx x => exact ⟨⟨x, 0#4, 0#4, .inr (.inl hd)⟩, hpc⟩
  case ldMemVx x => exact ⟨⟨x, 0#4, 0#4, .inr (.inr (.inl hd))⟩, hpc⟩
  case ldVxMem x => exact ⟨⟨x, 0#4, 0#4, .inr (.inr (.inr hd))⟩, hpc⟩

section
variable {s t u : State} {e : ErrorRecord}

/-- The inversion of `raise`: the mode is all it writes, and PC is the record's (R150, R318). -/
theorem eq_of_raise {k : ErrorKind} {op : Option Word} (h : raise k op s = .next t) (he : t.mode = .halted e) :
    e = { kind := k, opcode := op, pc := s.pc } ∧ t = { s with mode := .halted e } := by
  obtain rfl := Host.Outcome.next.inj h
  obtain rfl := Mode.halted.inj he
  exact ⟨rfl, rfl⟩

theorem ne_halted_of_next (h : (.next u : Result) = .next t) (hu : u.mode ≠ .halted e) : t.mode ≠ .halted e :=
  of_next_eq (P := fun r => r.mode ≠ .halted e) h hu

theorem ne_halted_of_running (h : (.next u : Result) = .next t) (hu : u.mode = .running) : t.mode ≠ .halted e :=
  ne_halted_of_next h (hu ▸ nofun)

/-- A checked operation that stays in Running halts by its error only. -/
theorem raise_of_ite_halted {c : Prop} [Decidable c] {k : ErrorKind} {op : Option Word}
    (h : (if c then .next u else raise k op s) = .next t) (hu : u.mode = .running) (he : t.mode = .halted e) :
    raise k op s = .next t := by
  split at h
  · exact absurd he (ne_halted_of_running h hu)
  · exact h

theorem raise_of_callTo_halted {op : Word} {nnn : Addr} (hm : s.mode = .running)
    (h : callTo op nnn s = .next t) (he : t.mode = .halted e) :
    raise .stackOverflow (some op) s = .next t := by
  rw [callTo_eq] at h
  exact raise_of_ite_halted h hm he

theorem raise_of_execSys_halted {nnn : Addr} (hm : s.mode = .running)
    (h : execSys nnn s = .next t) (he : t.mode = .halted e) :
    raise .stackOverflow (some (encode (.sys nnn))) s = .next t := by
  unfold execSys at h
  split at h
  · exact raise_of_callTo_halted hm h he
  · exact absurd he (ne_halted_of_running h hm)

theorem raise_of_execRet_halted (hm : s.mode = .running) (h : execRet s = .next t) (he : t.mode = .halted e) :
    raise .stackUnderflow (some (encode .ret)) s = .next t := by
  rw [execRet_eq] at h
  split at h
  · exact h
  · exact absurd he (ne_halted_of_running h hm)

/-- A key skip takes the model-only fault, never a fatal error (R276, R317). -/
theorem skipOnKey_ne_halted {b : Bool} {x : Nibble} (hm : s.mode = .running)
    (h : skipOnKey b x s = .next t) : t.mode ≠ .halted e := by
  rw [skipOnKey_eq] at h
  split at h
  · exact ne_halted_of_running h hm
  · exact ne_halted_of_next h nofun

/-- R150: an instruction enters Halted by raising its own error with its own word. One whose footprint leaves
the mode never does. -/
theorem exec_halted {i : Instr} (hm : s.mode = .running) (h : exec i s = .next t) (he : t.mode = .halted e) :
    ∃ k, ownError i = some k ∧ raise k (some (encode i)) s = .next t := by
  cases i with
  | ret => exact ⟨_, rfl, raise_of_execRet_halted hm h he⟩
  | sys nnn => exact ⟨_, rfl, raise_of_execSys_halted hm h he⟩
  | call nnn => exact ⟨_, rfl, raise_of_callTo_halted hm h he⟩
  | drw x y n => exact ⟨_, rfl, raise_of_ite_halted h hm he⟩
  | ldBVx x => exact ⟨_, rfl, raise_of_ite_halted h ((State.writeBytes_mode ..).trans hm) he⟩
  | ldMemVx x =>
    have hmode : ((s.advance.writeBytes s.i.toNat (s.lowRegs x)).incrementIndex x).mode = .running := by
      simp [hm]
    exact ⟨_, rfl, raise_of_ite_halted h hmode he⟩
  | ldVxMem x => exact ⟨_, rfl, raise_of_ite_halted h ((State.incrementIndex_mode ..).trans hm) he⟩
  | skp x | sknp x => exact absurd he (skipOnKey_ne_halted hm h)
  | ldVxK x => exact absurd he (ne_halted_of_next h nofun)
  | _ =>
    have hmode : t.mode = s.mode := (exec_frame _ h).mode rfl
    exact nomatch he.symm.trans (hmode.trans hm)

/-- R143, R147, R150: a step enters Halted by raising an error with a sound record: that of a failed fetch, of
an unknown word, or of the fetched instruction. -/
theorem step_halted (hm : s.mode = .running) (h : step s = .next t) (he : t.mode = .halted e) :
    ∃ k op, raise k op s.beginStep = .next t ∧ (s.pc.toNat ≤ 0xFFE → op = some s.fetchOpcode) ∧
      ErrorRecord.Sound { kind := k, opcode := op, pc := s.pc } := by
  rcases step_cases h with ⟨hidle, -⟩ | ⟨-, hf, hr⟩ | ⟨-, op, hf, hr⟩ | ⟨-, i, hf, hx⟩
  · exact absurd hm hidle
  · have hpc := s.fetch_eq_outOfRange.mp hf
    exact ⟨_, _, hr, fun hle => absurd hle (Nat.not_le.mpr hpc), hpc⟩
  · obtain ⟨hpc, hd, hop⟩ := (s.fetch_eq_unknown op).mp hf
    exact ⟨_, _, hr, fun _ => congrArg some hop, hd, hpc⟩
  · obtain ⟨hpc, hd⟩ := (s.fetch_eq_instr i).mp hf
    obtain ⟨k, hk, hr⟩ := exec_halted (s := s.beginStep) hm hx he
    rw [encode_of_decodeTag hd] at hr
    exact ⟨k, _, hr, fun _ => rfl, sound_of_ownError hd hk hpc⟩

end

/-- Settles O17: the step raised the error, and `raise` writes the mode only. -/
theorem fatalErrorsCommitNothing : Obligations.FatalErrorsCommitNothing := by
  intro s t e hm h he
  obtain ⟨k, op, hr, hop, hsound⟩ := step_halted hm h he
  obtain ⟨rfl, ht⟩ := eq_of_raise hr he
  exact ⟨ht, rfl, hop, hsound⟩

end Sys2Proof.Machine
end

section
/-! Halted and Faulted until a reset (R141, R317, R319). -/

namespace Sys2Proof.Machine

/-- `t` is `s` but for the timers, the keypad and the memory: what the host writes outside a step and a reset
(R324, R326, R328). -/
def DiffersByHostInput (s t : State) : Prop :=
  ∃ dt st key mem, t = { s with dt := dt, st := st, key := key, mem := mem }

theorem DiffersByHostInput.refl (s : State) : DiffersByHostInput s s := ⟨_, _, _, _, rfl⟩

theorem DiffersByHostInput.trans {s t u : State} (h : DiffersByHostInput s t) (k : DiffersByHostInput t u) :
    DiffersByHostInput s u := by
  obtain ⟨_, _, _, _, rfl⟩ := h
  obtain ⟨_, _, _, _, rfl⟩ := k
  exact ⟨_, _, _, _, rfl⟩

theorem DiffersByHostInput.live_eq {s t : State} (h : DiffersByHostInput s t) : t.live = s.live := by
  obtain ⟨_, _, _, _, rfl⟩ := h
  rfl

theorem State.ne_running_of_not_live {s : State} (hs : s.live = false) : s.mode ≠ .running := by
  intro hm
  simp [State.live, hm] at hs

/-- Outside a key wait a key press writes the keypad only (R326, R327). -/
theorem State.keyDown_differs {s : State} (hs : s.live = false) (k : Nibble) :
    DiffersByHostInput s (s.keyDown k) := by
  unfold State.keyDown
  split
  next x hm => simp [State.live, hm] at hs
  all_goals exact ⟨_, _, _, _, rfl⟩

/-- R141, R319: on a halted or faulted machine no transaction but the reset writes the engine. -/
theorem Transaction.apply_of_not_live {u : Transaction} {s t : State} (hs : s.live = false) (hu : u ≠ .reset)
    (h : u.apply s = .next t) : DiffersByHostInput s t := by
  cases u with
  | step =>
    have hidle := step_idle s (State.ne_running_of_not_live hs)
    exact of_next_eq (hidle.symm.trans h) (DiffersByHostInput.refl s)
  | tick | keyUp k => exact of_next_eq h ⟨_, _, _, _, rfl⟩
  | keyDown k => exact of_next_eq h (State.keyDown_differs hs k)
  | loadRom rom =>
    rcases apply_loadRom_cases h with rfl | ⟨-, rfl⟩
    · exact DiffersByHostInput.refl t
    · exact ⟨_, _, _, _, State.writeBytes_eq rom s programBase⟩
  | reset => exact absurd rfl hu

theorem runTransactions_of_not_live {ts : List Transaction} {s t : State} (hs : s.live = false)
    (hts : ∀ u ∈ ts, u ≠ .reset) (h : runTransactions ts s = .next t) : DiffersByHostInput s t :=
  runTransactions_keeps (DiffersByHostInput s)
    (fun u hu _ _ hr ha => hr.trans (Transaction.apply_of_not_live (hr.live_eq.trans hs) (hts u hu) ha))
    (DiffersByHostInput.refl s) h

/-- Settles O55: a run without a reset writes only the timers, the keypad and the memory. -/
theorem haltedAndFaultedLastUntilReset : Obligations.HaltedAndFaultedLastUntilReset := by
  intro ts s t hmode hts h
  have hs : s.live = false := by
    rcases hmode with ⟨e, he⟩ | ⟨r, hr⟩
    · simp [State.live, he]
    · simp [State.live, hr]
  obtain ⟨_, _, _, _, rfl⟩ := runTransactions_of_not_live hs hts h
  exact ⟨rfl, rfl, rfl, rfl, rfl, rfl, rfl⟩

end Sys2Proof.Machine
end

section
/-! Control flow: jumps, skips, calls and returns (spec/41_control_flow.md R180 to R188). -/

namespace Sys2Proof.Machine

/-! ### Jumps (R182, R188) -/

/-- An instruction that only sets PC completes at its target. -/
theorem completes_of_jump {i : Instr} {s : State} {target : Word} {n : Nat}
    (h : exec i s = .next (s.jump target)) (hn : target.toNat = n) :
    Completes i s fun t => t.pc.toNat = n ∧ Frame {} s t :=
  ⟨_, h, hn, Frame.setPc s target⟩

/-- R188 (D1): the sum of a 12-bit address and a byte never wraps. -/
theorem State.toNat_offsetTarget (s : State) (nnn : Addr) :
    (s.offsetTarget nnn).toNat = nnn.toNat + (s.getV 0#4).toNat := by
  have h1 := nnn.isLt
  have h2 := (s.getV 0#4).isLt
  rw [State.offsetTarget, BitVec.toNat_add, toNat_zextAddr, toNat_zextByte]
  omega

/-- Settles O22: the target is the zero-extended address. -/
theorem jumpGoesToItsTarget : Obligations.JumpGoesToItsTarget :=
  fun nnn _ => completes_of_jump rfl (toNat_zextAddr nnn)

/-- Settles O29: the target is the exact sum, and only PC is written. -/
theorem offsetJumpIsTheExactSum : Obligations.OffsetJumpIsTheExactSum :=
  fun nnn s => completes_of_jump rfl (s.toNat_offsetTarget nnn)

/-! ### Skips (R153, R184 to R187) -/

theorem State.skipIf_true_pc (s : State) : (s.skipIf true).pc = s.pc + 4#16 := by
  rw [State.skipIf_pc, if_pos rfl, State.pcNext, BitVec.add_assoc]
  rfl

theorem State.skipIf_false_pc (s : State) : (s.skipIf false).pc = s.pc + 2#16 := rfl

section
variable {i : Instr} {s : State}

/-- R153: `P` is what takes the skip, `Q` what does not. -/
theorem completes_of_skipIf {c : Bool} {P Q : Prop} (h : exec i s = .next (s.skipIf c))
    (hP : P → c = true) (hQ : Q → c = false) :
    Completes i s fun t => (P → t.pc = s.pc + 4#16) ∧ (Q → t.pc = s.pc + 2#16) ∧ Frame {} s t :=
  ⟨_, h, fun p => hP p ▸ s.skipIf_true_pc, fun q => hQ q ▸ s.skipIf_false_pc, Frame.setPc s _⟩

theorem completes_of_skipIf_eq {a b : Byte} (h : exec i s = .next (s.skipIf (a == b))) :
    Completes i s fun t =>
      (a.toNat = b.toNat → t.pc = s.pc + 4#16) ∧ (a.toNat ≠ b.toNat → t.pc = s.pc + 2#16) ∧ Frame {} s t :=
  completes_of_skipIf h
    (fun heq => beq_iff_eq.mpr (BitVec.eq_of_toNat_eq heq))
    (fun hne => beq_eq_false_iff_ne.mpr (BitVec.toNat_ne_iff_ne.mp hne))

theorem completes_of_skipIf_ne {a b : Byte} (h : exec i s = .next (s.skipIf (a != b))) :
    Completes i s fun t =>
      (a.toNat ≠ b.toNat → t.pc = s.pc + 4#16) ∧ (a.toNat = b.toNat → t.pc = s.pc + 2#16) ∧ Frame {} s t :=
  completes_of_skipIf h
    (fun hne => bne_iff_ne.mpr (BitVec.toNat_ne_iff_ne.mp hne))
    (fun heq => bne_eq_false_iff_eq.mpr (BitVec.eq_of_toNat_eq heq))

end

/-- Settles O27: the two skips compare V[x] with the immediate. -/
theorem immediateSkipsCompareAsStated : Obligations.ImmediateSkipsCompareAsStated :=
  fun _ _ _ => ⟨completes_of_skipIf_eq rfl, completes_of_skipIf_ne rfl⟩

/-- Settles O28: the two skips compare V[x] with V[y]. -/
theorem registerSkipsCompareAsStated : Obligations.RegisterSkipsCompareAsStated :=
  fun _ _ _ => ⟨completes_of_skipIf_eq rfl, completes_of_skipIf_ne rfl⟩

/-! ### Calls (R181, R183, R312) -/

/-- R105: an ADDR word is the number its digits give. -/
theorem encodeAddr_eq_ofNat (c : Nibble) (nnn : Addr) :
    encodeAddr c nnn = BitVec.ofNat 16 (c.toNat * 4096 + nnn.toNat) := by
  rw [← toNat_encodeAddr, BitVec.ofNat_toNat, BitVec.setWidth_eq]

section
variable {i : Instr} {op : Word} {nnn : Addr} {s : State}

/-- R183 with room on the stack: the pushed entry is S[SP], and the entries below it stay. -/
theorem completes_of_callTo (h : exec i s = callTo op nnn s) (hsp : s.sp < 16) :
    Completes i s fun t =>
      t.pc.toNat = nnn.toNat ∧ t.sp = s.sp + 1 ∧ t.stackEntry s.sp = some (s.pc + 2#16) ∧
      (∀ k, k < s.sp → t.stackEntry k = s.stackEntry k) ∧ Frame { stack := true } s t :=
  ⟨_, h.trans ((callTo_eq op nnn s).trans (if_pos hsp)), toNat_zextAddr nnn, rfl,
    getElem?_reverse_cons_length _ s.stack, getElem?_reverse_cons_of_lt _ s.stack,
    Frame.setStackAndPc s _ _ rfl⟩

/-- R312: with a full stack the call takes its error. -/
theorem halts_of_callTo {n : Nat} (h : exec i s = callTo op nnn s) (hsp : s.sp = 16)
    (hop : op = BitVec.ofNat 16 n) : Halts i s .stackOverflow n := by
  subst hop
  exact h.trans ((callTo_eq _ nnn s).trans (if_neg (Nat.not_lt.mpr hsp.ge)))

/-- R181 in mode Call. -/
theorem exec_sys_of_call (hc : s.cfg.machineCall = .call) :
    exec (.sys nnn) s = callTo (encode (.sys nnn)) nnn s := by
  simp only [exec, execSys, hc]

/-- R181 in mode Nop. -/
theorem exec_sys_of_nop (hc : s.cfg.machineCall = .nop) : exec (.sys nnn) s = .next s.advance := by
  simp only [exec, execSys, hc]

end

/-- Settles O23: CALL is the call of its own word, with room on the stack and without. -/
theorem callPushesAndJumpsOrOverflows : Obligations.CallPushesAndJumpsOrOverflows :=
  fun nnn _ => ⟨completes_of_callTo rfl, fun hsp => halts_of_callTo rfl hsp (encodeAddr_eq_ofNat 0x2#4 nnn)⟩

/-- Settles O24: in mode Call the call of the 0NNN word, in mode Nop the advance. -/
theorem machineCallFollowsItsConfiguration : Obligations.MachineCallFollowsItsConfiguration := by
  intro nnn s
  refine ⟨fun hc => completes_of_callTo (exec_sys_of_call hc), fun hc hsp => ?_, fun hc => ?_⟩
  · have hword : encode (.sys nnn) = BitVec.ofNat 16 nnn.toNat :=
      (encodeAddr_eq_ofNat 0x0#4 nnn).trans (by simp)
    exact halts_of_callTo (exec_sys_of_call hc) hsp hword
  · exact ⟨_, exec_sys_of_nop hc, rfl, Frame.advance s⟩

/-! ### Returns (R180, R313) -/

/-- The entry at SP − 1 is the one a pop takes (R34). -/
theorem State.stack_eq_cons_of_stackEntry_last {s : State} {a : Word}
    (h : s.stackEntry (s.sp - 1) = some a) : ∃ rest, s.stack = a :: rest := by
  cases hs : s.stack with
  | nil => simp [State.stackEntry, hs] at h
  | cons b rest =>
    obtain rfl : b = a := Option.some.inj ((s.stackEntry_last b rest hs).symm.trans h)
    exact ⟨rest, rfl⟩

/-- R180 with a live entry: the pop takes the top and leaves the entries below it. -/
theorem completes_ret_of_cons {s : State} {a : Word} {rest : List Word} (h : s.stack = a :: rest) :
    Completes .ret s fun t =>
      t.pc = a ∧ t.sp = s.sp - 1 ∧ (∀ k, k < t.sp → t.stackEntry k = s.stackEntry k) ∧
      Frame { stack := true } s t := by
  refine ⟨_, exec_ret_of_cons h, rfl, ?_, fun k hk => ?_, Frame.setStackAndPc s rest a rfl⟩
  · simp [State.sp, h]
  · simpa only [State.stackEntry, h] using (getElem?_reverse_cons_of_lt a rest k hk).symm

/-- R313: with an empty stack the return takes its error. -/
theorem exec_ret_of_nil {s : State} (h : s.stack = []) :
    exec .ret s = raise .stackUnderflow (some 0x00EE#16) s :=
  (execRet_eq s).trans (by rw [h])

/-- Settles O25: the entry at SP − 1 is the popped one, and with SP = 0 there is none. -/
theorem returnPopsOrUnderflows : Obligations.ReturnPopsOrUnderflows := by
  refine fun s => ⟨fun a _ ha => ?_, fun hsp => exec_ret_of_nil (List.length_eq_zero_iff.mp hsp)⟩
  obtain ⟨rest, hrest⟩ := State.stack_eq_cons_of_stackEntry_last ha
  exact completes_ret_of_cons hrest

end Sys2Proof.Machine
end

section
/-! Registers, the ALU and I (spec/42_register_alu.md R210 to R233, spec/43_display.md R254). -/

namespace Sys2Proof.Machine

/-! ### The ALU primitives (R210 to R214) -/

@[simp] theorem toNat_bool2bit (c : Bool) : (bool2bit c).toNat = c.toNat := by
  cases c <;> rfl

theorem toNat_bool2bit_decide (p : Prop) [Decidable p] :
    (bool2bit (decide p)).toNat = if p then 1 else 0 := by
  split <;> simp [*]

/-- A bit of a byte as a flag: the bit at position `k` of its number. -/
theorem toNat_bool2bit_getLsbD (b : Byte) (k : Nat) : (bool2bit (b.getLsbD k)).toNat = b.toNat / 2 ^ k % 2 := by
  rw [toNat_bool2bit, BitVec.getLsbD, Nat.toNat_testBit]

/-- R211: the difference, narrowed once from the integers. -/
theorem toNat_sub8_result (a b : Byte) : (sub8 a b).1.toNat = (256 + a.toNat - b.toNat) % 256 := by
  have hb := b.isLt
  rw [sub8, BitVec.toNat_ofInt]
  omega

/-- R212 is R211 with its operands exchanged. -/
theorem rsub8_eq_sub8 (a b : Byte) : rsub8 a b = sub8 b a := rfl

theorem toNat_shr8_result (b : Byte) : (shr8 b).1.toNat = b.toNat / 2 := by
  rw [shr8, BitVec.toNat_ushiftRight, Nat.shiftRight_eq_div_pow, Nat.pow_one]

theorem toNat_shr8_flag (b : Byte) : (shr8 b).2.toNat = b.toNat % 2 := by
  rw [shr8, toNat_bool2bit_getLsbD, Nat.pow_zero, Nat.div_one]

theorem toNat_shl8_result (b : Byte) : (shl8 b).1.toNat = b.toNat * 2 % 256 := by
  rw [shl8, BitVec.toNat_shiftLeft, Nat.shiftLeft_eq, Nat.pow_one]

theorem toNat_shl8_flag (b : Byte) : (shl8 b).2.toNat = b.toNat / 128 := by
  have hb := b.isLt
  rw [shl8, toNat_bool2bit_getLsbD]
  omega

/-- R215 (D4): the source under either value of `shiftOperand`. -/
theorem State.toNat_shiftSrc {s : State} {x y : Nibble} {v : Nat}
    (h : (s.cfg.shiftOperand = .vx ∧ v = (s.getV x).toNat) ∨
      (s.cfg.shiftOperand = .vy ∧ v = (s.getV y).toNat)) : (s.shiftSrc x y).toNat = v := by
  obtain ⟨hsrc, rfl⟩ | ⟨hsrc, rfl⟩ := h
  · simp only [State.shiftSrc, hsrc]
  · simp only [State.shiftSrc, hsrc]

/-! ### Result and flag (R151, R226 to R230) -/

section
variable (s : State) {x : Nibble} (rf : Byte × Byte)

theorem State.getV_writeResultAndFlag_result (hx : x ≠ vf) : (s.writeResultAndFlag x rf).getV x = rf.1 := by
  simp [State.getV_writeResultAndFlag, hx]

theorem State.getV_writeResultAndFlag_flag (hx : x ≠ vf) : (s.writeResultAndFlag x rf).getV vf = rf.2 := by
  simp [State.getV_writeResultAndFlag, hx.symm]

/-- R151 for x = 15 under flagLast: the flag overwrites the result. -/
theorem State.getV_writeResultAndFlag_vf_of_flagLast (ho : s.cfg.flagOrder = .flagLast) :
    (s.writeResultAndFlag vf rf).getV vf = rf.2 := by
  simp [State.getV_writeResultAndFlag, ho]

/-- R151 for x = 15 under resultLast: the result overwrites the flag. -/
theorem State.getV_writeResultAndFlag_vf_of_resultLast (ho : s.cfg.flagOrder = .resultLast) :
    (s.writeResultAndFlag vf rf).getV vf = rf.1 := by
  simp [State.getV_writeResultAndFlag, ho]

end

/-- R151: an instruction that hands an ALU primitive's pair to `writeVAndFlag` writes its result and its flag. -/
theorem writesResultAndFlag_of_writeVAndFlag {i : Instr} {s : State} {x : Nibble} {rf : Byte × Byte} {r f : Nat}
    (h : exec i s = writeVAndFlag x rf s) (hr : rf.1.toNat = r) (hf : rf.2.toNat = f) :
    WritesResultAndFlag i s x r f := by
  subst hr hf
  refine ⟨_, h, State.writeResultAndFlag_pc _ _ _, fun hx => ⟨?_, ?_⟩, ?_, ?_, ?_⟩
  · rw [State.getV_writeResultAndFlag_result _ _ hx]
  · rw [State.getV_writeResultAndFlag_flag _ _ hx]
  · rintro rfl ho
    rw [State.getV_writeResultAndFlag_vf_of_flagLast s.advance rf ho]
  · rintro rfl ho
    rw [State.getV_writeResultAndFlag_vf_of_resultLast s.advance rf ho]
  · exact (Frame.advance s).trans (Frame.writeResultAndFlag _ rf (by simp) (by simp))

/-- Settles O33: `add8` gives the sum mod 256 and the carry. -/
theorem addSetsTheCarry : Obligations.AddSetsTheCarry :=
  fun _ _ _ => writesResultAndFlag_of_writeVAndFlag rfl (BitVec.toNat_ofNat _ 8) (toNat_bool2bit_decide _)

/-- Settles O34: `sub8` gives the difference mod 256 and no-borrow, and `rsub8` is `sub8` exchanged. -/
theorem subtractionsSetNoBorrow : Obligations.SubtractionsSetNoBorrow :=
  fun _ _ _ =>
    ⟨writesResultAndFlag_of_writeVAndFlag rfl (toNat_sub8_result _ _) (toNat_bool2bit_decide _),
      writesResultAndFlag_of_writeVAndFlag rfl
        (rsub8_eq_sub8 _ _ ▸ toNat_sub8_result _ _) (toNat_bool2bit_decide _)⟩

/-- Settles O35: both shifts of the configured source, each with the bit it shifts out. -/
theorem shiftsTakeTheConfiguredSource : Obligations.ShiftsTakeTheConfiguredSource := by
  intro x y s v hv
  obtain rfl := State.toNat_shiftSrc hv
  exact ⟨writesResultAndFlag_of_writeVAndFlag rfl (toNat_shr8_result _) (toNat_shr8_flag _),
    writesResultAndFlag_of_writeVAndFlag rfl (toNat_shl8_result _) (toNat_shl8_flag _)⟩

/-! ### One register (R220 to R225) -/

theorem State.getV_setV_self (s : State) (x : Nibble) (b : Byte) : (s.setV x b).getV x = b :=
  (s.getV_setV x x b).trans (if_pos rfl)

/-- An instruction that hands `b` to `writeV` completes with what `Q` says of a state whose V[x] is `b`, and
no flag is written (R216). -/
theorem completes_of_writeV {i : Instr} {s : State} {x : Nibble} {b : Byte} {Q : State → Prop}
    (h : exec i s = writeV x b s) (hQ : ∀ t : State, t.getV x = b → Q t) :
    Completes i s fun t => Q t ∧ t.pc = s.pc + 2#16 ∧ Frame { regs := [x] } s t :=
  ⟨_, h, hQ _ (State.getV_setV_self _ x b), rfl, Frame.of_writeV (List.mem_singleton_self x) rfl⟩

/-- Settles O30: each load hands its operand to `writeV`. -/
theorem loadsPutTheOperandInTheRegister : Obligations.LoadsPutTheOperandInTheRegister :=
  fun _ _ _ _ => ⟨completes_of_writeV rfl fun _ ht => ht, completes_of_writeV rfl fun _ ht => ht⟩

/-- Settles O31: the byte sum is the sum mod 256. -/
theorem addImmediateWrapsAndSetsNoFlag : Obligations.AddImmediateWrapsAndSetsNoFlag :=
  fun x nn s => completes_of_writeV rfl fun t ht => by rw [ht, BitVec.toNat_add]

/-- Settles O32: the bits of the three byte operations. -/
theorem bitwiseOperationsWorkBitByBit : Obligations.BitwiseOperationsWorkBitByBit := by
  refine fun x y s => ⟨completes_of_writeV rfl ?_, completes_of_writeV rfl ?_, completes_of_writeV rfl ?_⟩
  · intro t ht k _
    rw [ht, BitVec.getLsbD_or]
  · intro t ht k _
    rw [ht, BitVec.getLsbD_and]
  · intro t ht k _
    rw [ht, BitVec.getLsbD_xor]

/-! ### The index register (R231, R233, R254) -/

theorem completes_of_setI {i : Instr} {s : State} {a : Word} {n : Nat}
    (h : exec i s = .next (s.advance.setI a)) (hn : a.toNat = n) :
    Completes i s fun t => t.i.toNat = n ∧ t.pc = s.pc + 2#16 ∧ Frame { index := true } s t :=
  ⟨_, h, hn, rfl, (Frame.advance s).trans (Frame.setI _ a rfl)⟩

/-- R254: the glyph address of any byte, masked to no digit, stays below 0x10000. -/
theorem toNat_glyphAddress (c : Config) (b : Byte) :
    (glyphAddress c b).toNat = c.fontBase.toNat + b.toNat * 5 := by
  have hbase := c.fontBase.isLt
  have hb := b.isLt
  rw [glyphAddress, BitVec.toNat_add, BitVec.toNat_mul, toNat_zextAddr, toNat_zextByte, BitVec.toNat_ofNat]
  omega

/-- Settles O36: the three addresses as numbers, of which only I + V[x] can wrap. -/
theorem indexWritersGiveTheStatedAddress : Obligations.IndexWritersGiveTheStatedAddress := by
  refine fun x nnn s => ⟨completes_of_setI rfl (toNat_zextAddr nnn), completes_of_setI rfl ?_,
    completes_of_setI rfl (toNat_glyphAddress s.cfg (s.getV x))⟩
  rw [BitVec.toNat_add, toNat_zextByte]

/-! ### The random byte (R232) -/

/-- R232: the state after CXNN, the draw given. -/
theorem rndWith_eq_next (rnd : Byte) (x : Nibble) (nn : Byte) (s : State) :
    rndWith rnd x nn s = .next ({ s with draws := s.draws + 1 }.advance.setV x (rnd &&& nn)) := rfl

/-- Settles O37: the masked draw for every draw, and `exec` takes the free one (D16). -/
theorem randomByteIsAMaskedFreeDraw : Obligations.RandomByteIsAMaskedFreeDraw := by
  refine fun x nn s => ⟨fun rnd => ⟨_, rndWith_eq_next rnd x nn s, fun k _ => ?_, rfl, rfl, ?_⟩,
    _, rfl, rndWith_eq_next _ x nn s, State.getV_setV_self _ x _⟩
  · rw [State.getV_setV_self, BitVec.getLsbD_and]
  · exact (Frame.setDraws s _ rfl).trans (Frame.of_writeV (List.mem_singleton_self x) rfl)

end Sys2Proof.Machine
end

section
/-! The display: the cleared screen, one draw and two draws (spec/43_display.md R250 to R253). -/

namespace Sys2Proof.Machine

/-! ### What the sprite loop gives (R252, R253) -/

section
variable (s : State) (x y n : Nibble)

/-- R252: covered pixels are flipped, the others kept, and a collision is a covered pixel that was set. A
sprite has at most 15 rows, so no pixel is hit twice (R253). -/
theorem State.drawSprite_spec :
    (∀ px py, s.spriteCovers x y n px py → (s.drawSprite x y n).1.pixel px py = !s.pixel px py) ∧
    (∀ px py, ¬s.spriteCovers x y n px py → (s.drawSprite x y n).1.pixel px py = s.pixel px py) ∧
    ((s.drawSprite x y n).2 = true ↔ ∃ px py, s.spriteCovers x y n px py ∧ s.pixel px py = true) := by
  have hrows : (s.readBytes s.i n.toNat).length ≤ 32 := by
    have hn := n.isLt
    rw [State.length_readBytes]
    omega
  exact drawRows_spec (s.getV x).toNat (s.getV y).toNat _ s.fb hrows

/-- R252: the collision flag is raised exactly when some pixel goes from 1 to 0. -/
theorem State.drawSprite_collision_iff :
    (s.drawSprite x y n).2 = true ↔
      ∃ px py, s.pixel px py = true ∧ (s.drawSprite x y n).1.pixel px py = false := by
  obtain ⟨hflip, hkeep, hhit⟩ := s.drawSprite_spec x y n
  rw [hhit]
  refine exists₂_congr fun px py => ?_
  by_cases hc : s.spriteCovers x y n px py
  · simp [hc, hflip px py hc]
  · simp [hc, hkeep px py hc]

end

/-! ### The two ends of DXYN (R252, R314) -/

section
variable {x y n : Nibble} {s : State}

/-- R252: a draw whose rows all lie in memory ends by writing the collision flag, after the screen. -/
theorem exec_drw_of_rangeOk (h : rangeOk s.i n.toNat = true) :
    exec (.drw x y n) s =
      .next ({ s.advance with fb := (s.drawSprite x y n).1, drewLastStep := true }.setV vf
        (bool2bit (s.drawSprite x y n).2)) :=
  if_pos h

/-- R314: any other draw takes its error with its own word. -/
theorem exec_drw_of_not_rangeOk (h : ¬rangeOk s.i n.toNat = true) :
    exec (.drw x y n) s = raise .outOfBounds (some (encode (.drw x y n))) s :=
  if_neg h

end

/-- R105: a REG_REG word is the number its digits give. -/
theorem encodeRegReg_eq_ofNat (c x y k : Nibble) :
    encodeRegReg c x y k =
      BitVec.ofNat 16 (c.toNat * 4096 + x.toNat * 256 + y.toNat * 16 + k.toNat) := by
  rw [← toNat_encodeRegReg, BitVec.ofNat_toNat, BitVec.setWidth_eq]

/-- Settles O38: the cleared framebuffer has no set pixel. -/
theorem clearMakesEveryPixelZero : Obligations.ClearMakesEveryPixelZero :=
  fun s => ⟨_, rfl, Framebuffer.pixel_cleared, rfl, rfl,
    (Frame.advance s).trans (Frame.setScreen _ _ _ rfl rfl)⟩

/-- Settles O39: the loop reads the coordinates and rows of the state before VF is written (D7), and VF is
its collision flag. -/
theorem drawFlipsTheCoveredPixels : Obligations.DrawFlipsTheCoveredPixels := by
  intro x y n s hrange
  obtain ⟨hflip, hkeep, -⟩ := s.drawSprite_spec x y n
  have hcollision := s.drawSprite_collision_iff x y n
  refine ⟨_, exec_drw_of_rangeOk ((rangeOk_iff _ _).mpr hrange), hflip, hkeep, fun hc => ?_, fun hn => ?_,
    rfl, rfl, ?_⟩
  · rw [State.getV_setV_self, hcollision.mpr hc]
    rfl
  · rw [State.getV_setV_self, Bool.eq_false_of_not_eq_true (mt hcollision.mp hn)]
    rfl
  · exact ((Frame.advance s).trans (Frame.setScreen _ _ _ rfl rfl)).trans
      (Frame.setV _ _ (List.mem_singleton_self vf))

/-- Settles O40: the range check fails, and the word of the error is the draw's own. -/
theorem drawBeyondMemoryHalts : Obligations.DrawBeyondMemoryHalts := by
  intro x y n s hn hi
  have hrange : ¬rangeOk s.i n.toNat = true := by
    rw [rangeOk_iff]
    omega
  have hword : encode (.drw x y n) = BitVec.ofNat 16 (0xD000 + x.toNat * 256 + y.toNat * 16 + n.toNat) :=
    encodeRegReg_eq_ofNat 0xD#4 x y n
  rw [Halts, exec_drw_of_not_rangeOk hrange, hword]
  rfl

/-! ### Two draws (R252, R253) -/

section
variable {w : Footprint} {s t : State}

/-- What keeps the memory keeps every run of bytes. -/
theorem Frame.readBytes_eq (h : Frame w s t) (hw : w.memory = []) (base : Word) (count : Nat) :
    t.readBytes base count = s.readBytes base count :=
  List.map_congr_left fun a _ => h.memory a (hw ▸ List.not_mem_nil)

/-- What keeps I, the memory and the two coordinates keeps the pixels the sprite covers. -/
theorem Frame.spriteCovers_iff (h : Frame w s t) (hindex : w.index = false) (hmem : w.memory = [])
    {x y : Nibble} (hx : x ∉ w.regs) (hy : y ∉ w.regs) (n : Nibble) (px py : Nat) :
    t.spriteCovers x y n px py ↔ s.spriteCovers x y n px py := by
  rw [State.spriteCovers, h.regs x hx, h.regs y hy, h.index hindex, h.readBytes_eq hmem, State.spriteCovers]

end

/-- Settles O41: the second draw covers the same pixels, so it flips back what the first flipped. Where the
first met no set pixel, a covered pixel goes from 0 to 1 and then from 1 to 0. -/
theorem drawingTwiceRestoresThePixels : Obligations.DrawingTwiceRestoresThePixels := by
  intro x y n s hx hy hrange
  obtain ⟨t, ht, flip₁, keep₁, hit₁, -, -, -, hframe⟩ := drawFlipsTheCoveredPixels x y n s hrange
  have hi : t.i = s.i := hframe.index rfl
  obtain ⟨u, hu, flip₂, keep₂, hit₂, -, -, -, -⟩ := drawFlipsTheCoveredPixels x y n t (hi ▸ hrange)
  have hcovers : ∀ px py, t.spriteCovers x y n px py ↔ s.spriteCovers x y n px py :=
    hframe.spriteCovers_iff rfl rfl (by simpa using hx) (by simpa using hy) n
  have hback : ∀ px py, u.pixel px py = s.pixel px py := by
    intro px py
    by_cases hc : s.spriteCovers x y n px py
    · rw [flip₂ px py ((hcovers px py).mpr hc), flip₁ px py hc, Bool.not_not]
    · rw [keep₂ px py (mt (hcovers px py).mp hc), keep₁ px py hc]
  refine ⟨t, u, ht, hu, hback, fun hvf ⟨px, py, hc⟩ => ?_⟩
  have hblank : s.pixel px py = false := by
    by_contra hset
    rw [Bool.not_eq_false] at hset
    have hvf' : t.getV vf = 1#8 := hit₁ ⟨px, py, hset, by rw [flip₁ px py hc, hset, Bool.not_true]⟩
    exact absurd (hvf.symm.trans hvf') (by decide)
  have hset : t.pixel px py = true := by rw [flip₁ px py hc, hblank, Bool.not_false]
  exact hit₂ ⟨px, py, hset, (hback px py).trans hblank⟩

end Sys2Proof.Machine
end

section
/-! Timers, keys and the key wait (spec/44_timers_keys.md R270 to R276, spec/60_exceptions.md R317, R324 to
R327). -/

namespace Sys2Proof.Machine

/-! ### Faulted is entered by a key skip only (R276, R317) -/

section
variable {s t u : State} {x : Nibble} {b : Bool}

theorem running_of_next (h : (.next u : Result) = .next t) (hu : u.mode = .running) : t.mode = .running :=
  of_next_eq (P := fun v => v.mode = .running) h hu

theorem halted_of_raise {k : ErrorKind} {op : Option Word} (h : raise k op s = .next t) :
    ∃ e, t.mode = .halted e :=
  of_next_eq (P := fun v => ∃ e, v.mode = .halted e) h ⟨_, rfl⟩

/-- R276, R317: a key skip with V[x] above 0xF writes the mode only. -/
theorem skipOnKey_of_gt (h : 15 < (s.getV x).toNat) :
    skipOnKey b x s = .next { s with mode := .faulted .keyIndexRange } :=
  (skipOnKey_eq b x s).trans (if_neg (Nat.not_le.mpr h))

/-- R276: a key skip that enters Faulted had V[x] above 0xF. -/
theorem skipOnKey_faulted {r : FaultReason} (hm : s.mode = .running) (h : skipOnKey b x s = .next t)
    (hr : t.mode = .faulted r) :
    15 < (s.getV x).toNat ∧ t = { s with mode := .faulted .keyIndexRange } := by
  by_cases hx : 15 < (s.getV x).toNat
  · rw [skipOnKey_of_gt hx] at h
    exact ⟨hx, (Host.Outcome.next.inj h).symm⟩
  · rw [skipOnKey_eq, if_pos (Nat.not_lt.mp hx)] at h
    exact nomatch (running_of_next h hm).symm.trans hr

/-- A checked operation that stays in Running ends in Running or Halted (R64, R150). -/
theorem mode_of_ite_raise {c : Prop} [Decidable c] {k : ErrorKind} {op : Option Word}
    (h : (if c then .next u else raise k op s) = .next t) (hu : u.mode = .running) :
    t.mode = .running ∨ ∃ e, t.mode = .halted e := by
  split at h
  · exact .inl (running_of_next h hu)
  · exact .inr (halted_of_raise h)

theorem mode_of_callTo {op : Word} {nnn : Addr} (hm : s.mode = .running) (h : callTo op nnn s = .next t) :
    t.mode = .running ∨ ∃ e, t.mode = .halted e := by
  rw [callTo_eq] at h
  exact mode_of_ite_raise h hm

/-- An instruction with an error of its own ends in Running or Halted (R312 to R314). -/
theorem exec_mode_of_ownError {i : Instr} {k : ErrorKind} (hk : ownError i = some k) (hm : s.mode = .running)
    (h : exec i s = .next t) : t.mode = .running ∨ ∃ e, t.mode = .halted e := by
  cases i <;> cases hk
  case ret =>
    cases hstack : s.stack with
    | nil => exact .inr (halted_of_raise ((exec_ret_of_nil hstack).symm.trans h))
    | cons a rest => exact .inl (running_of_next ((exec_ret_of_cons hstack).symm.trans h) hm)
  case sys nnn =>
    cases hc : s.cfg.machineCall with
    | call => exact mode_of_callTo hm ((exec_sys_of_call hc).symm.trans h)
    | nop => exact .inl (running_of_next ((exec_sys_of_nop hc).symm.trans h) hm)
  case call nnn => exact mode_of_callTo hm h
  case drw x y n => exact mode_of_ite_raise h hm
  case ldBVx x => exact mode_of_ite_raise h ((State.writeBytes_mode ..).trans hm)
  case ldMemVx x =>
    exact mode_of_ite_raise h (((State.incrementIndex_mode ..).trans (State.writeBytes_mode ..)).trans hm)
  case ldVxMem x => exact mode_of_ite_raise h ((State.incrementIndex_mode ..).trans hm)

/-- R317: only the two key skips enter Faulted. -/
theorem exec_faulted {i : Instr} {r : FaultReason} (hm : s.mode = .running) (h : exec i s = .next t)
    (hr : t.mode = .faulted r) :
    t = { s with mode := .faulted .keyIndexRange } ∧
      ∃ x, (i = .skp x ∨ i = .sknp x) ∧ 15 < (s.getV x).toNat := by
  cases i with
  | skp x =>
    obtain ⟨hx, ht⟩ := skipOnKey_faulted hm h hr
    exact ⟨ht, x, .inl rfl, hx⟩
  | sknp x =>
    obtain ⟨hx, ht⟩ := skipOnKey_faulted hm h hr
    exact ⟨ht, x, .inr rfl, hx⟩
  | ldVxK x =>
    have hwait : t.mode = .awaitingKey x := of_next_eq (P := fun v => v.mode = .awaitingKey x) h rfl
    exact nomatch hwait.symm.trans hr
  | ret | sys _ | call _ | drw _ _ _ | ldBVx _ | ldMemVx _ | ldVxMem _ =>
    rcases exec_mode_of_ownError rfl hm h with hrun | ⟨e, he⟩
    · exact nomatch hrun.symm.trans hr
    · exact nomatch he.symm.trans hr
  | _ =>
    have hmode : t.mode = s.mode := (exec_frame _ h).mode rfl
    exact nomatch hr.symm.trans (hmode.trans hm)

end

/-- Settles O18: a failed fetch or decode halts, and of the instructions only a key skip enters Faulted. -/
theorem faultedOnlyForAKeyIndexOutOfRange : Obligations.FaultedOnlyForAKeyIndexOutOfRange := by
  intro s t r hm h hr
  have not_halted : ¬∃ e, t.mode = .halted e := fun ⟨e, he⟩ => nomatch he.symm.trans hr
  rcases step_cases h with ⟨hidle, -⟩ | ⟨-, -, hraise⟩ | ⟨-, op, -, hraise⟩ | ⟨-, i, hf, hx⟩
  · exact absurd hm hidle
  · exact absurd (halted_of_raise hraise) not_halted
  · exact absurd (halted_of_raise hraise) not_halted
  · obtain ⟨-, hd⟩ := (s.fetch_eq_instr i).mp hf
    have hdec := (decode_eq_ok _ i).mpr hd
    obtain ⟨ht, x, rfl | rfl, hgt⟩ := exec_faulted (s := s.beginStep) hm hx hr
    · exact ⟨ht, x, .inl hdec, hgt⟩
    · exact ⟨ht, x, .inr hdec, hgt⟩

/-! ### The key wait (R275, R327) -/

/-- R275: FX0A begins the wait at pcNext. -/
theorem exec_ldVxK (x : Nibble) (s : State) :
    exec (.ldVxK x) s = .next { s with pc := s.pc + 2#16, mode := .awaitingKey x } := rfl

/-- The transactions that leave a key wait standing and write neither memory nor a register (R142, R324,
R326). -/
def Transaction.KeepsKeyWait (u : Transaction) : Prop :=
  u = .step ∨ u = .tick ∨ ∃ j, u = .keyUp j

/-- In a wait such a transaction writes the timers and the keypad only. -/
theorem Transaction.KeepsKeyWait.apply_eq {u : Transaction} {s : State} {x : Nibble} (hu : u.KeepsKeyWait)
    (hm : s.mode = .awaitingKey x) :
    ∃ dt st key, u.apply s = .next { s with dt := dt, st := st, key := key } := by
  rcases hu with rfl | rfl | ⟨j, rfl⟩
  · exact ⟨s.dt, s.st, s.key, step_idle s (hm ▸ nofun)⟩
  · exact ⟨_, _, s.key, rfl⟩
  · exact ⟨s.dt, s.st, _, rfl⟩

theorem runTransactions_cons_of_next {u : Transaction} {ts : List Transaction} {s t : State}
    (h : u.apply s = .next t) : runTransactions (u :: ts) s = runTransactions ts t := by
  rw [runTransactions, h]

theorem runTransactions_append_of_next {ts us : List Transaction} :
    ∀ {s t : State}, runTransactions ts s = .next t →
      runTransactions (ts ++ us) s = runTransactions us t := by
  induction ts with
  | nil =>
    intro s t h
    rw [Host.Outcome.next.inj h, List.nil_append]
  | cons u ts ih =>
    intro s t h
    obtain ⟨v, hv, hrest⟩ := runTransactions_cons_eq_next h
    rw [List.cons_append, runTransactions_cons_of_next hv, ih hrest]

/-- A wait outlasts every run of such transactions, which writes the timers and the keypad only. -/
theorem runTransactions_of_keepsKeyWait {x : Nibble} {ts : List Transaction} :
    (∀ u ∈ ts, u.KeepsKeyWait) → ∀ {s : State}, s.mode = .awaitingKey x →
      ∃ dt st key, runTransactions ts s = .next { s with dt := dt, st := st, key := key } := by
  induction ts with
  | nil => exact fun _ s _ => ⟨s.dt, s.st, s.key, rfl⟩
  | cons u ts ih =>
    intro hts s hm
    obtain ⟨hu, hlater⟩ := List.forall_mem_cons.mp hts
    obtain ⟨dt, st, key, happly⟩ := hu.apply_eq hm
    rw [runTransactions_cons_of_next happly]
    exact ih hlater (s := { s with dt := dt, st := st, key := key }) hm

/-- R327: the key that ends a wait goes to its register, and PC stays. -/
theorem State.keyDown_of_awaitingKey {s : State} {x : Nibble} (hm : s.mode = .awaitingKey x) (k : Nibble) :
    s.keyDown k =
      { s.setV x (k.setWidth 8) with mode := .running, key := s.key.set k.toNat true } := by
  unfold State.keyDown
  rw [hm]
  rfl

/-- Settles O46: the step enters the wait, the run leaves it standing, and the key ends it. -/
theorem keyWaitLastsUntilAKeyDown : Obligations.KeyWaitLastsUntilAKeyDown := by
  intro x k s ts hm hpc hd hts
  have hstep : Transaction.step.apply s =
      .next { s with pc := s.pc + 2#16, mode := .awaitingKey x, drewLastStep := false } :=
    (stepRunsTheDecodedInstruction s _ hm hpc hd).trans (exec_ldVxK x _)
  obtain ⟨dt, st, key, hwait⟩ := runTransactions_of_keepsKeyWait (x := x) hts
    (s := { s with pc := s.pc + 2#16, mode := .awaitingKey x, drewLastStep := false }) rfl
  have hrun := (runTransactions_cons_of_next hstep).trans hwait
  refine ⟨⟨_, hrun, rfl, rfl, rfl, rfl, rfl, rfl, rfl⟩, ?_⟩
  have hkey := (runTransactions_append_of_next (us := [.keyDown k]) hrun).trans
    (congrArg Host.Outcome.next (State.keyDown_of_awaitingKey rfl k))
  refine ⟨_, hkey, rfl, rfl, ?_, fun r hr => ?_, ?_⟩
  · exact (congrArg BitVec.toNat (State.getV_setV_self _ x _)).trans
      (BitVec.toNat_setWidth_of_le (by decide))
  · exact (State.getV_setV _ x r _).trans (if_neg hr)
  · exact Vector.getElem_set_self _

/-- Settles O44: FX0A writes PC and the mode. -/
theorem keyWaitBegins : Obligations.KeyWaitBegins :=
  fun x s => ⟨_, exec_ldVxK x s, rfl, rfl, (Frame.advance s).trans (Frame.setMode _ _ rfl)⟩

/-! ### Timers (R270 to R272, R325) -/

/-- R325: the sound is on while ST is not 0. -/
theorem State.soundActive_iff (s : State) : s.soundActive = true ↔ s.st ≠ 0#8 := by
  rw [State.soundActive, decide_eq_true_iff, ← BitVec.toNat_ne_iff_ne]
  exact Nat.pos_iff_ne_zero

/-- Settles O42: each instruction advances PC and writes its one byte. -/
theorem timerInstructionsMoveOneByte : Obligations.TimerInstructionsMoveOneByte := by
  refine fun x s => ⟨completes_of_writeV rfl fun _ ht => ht, ?_, ?_⟩
  · exact ⟨_, rfl, rfl, rfl, (Frame.advance s).trans (Frame.setDt _ _ rfl)⟩
  · exact ⟨_, rfl, rfl, State.soundActive_iff _, rfl, (Frame.advance s).trans (Frame.setSt _ _ rfl)⟩

/-! ### Key skips (R273, R274, R276) -/

/-- R276: the index a value in 0..15 gives is that value. -/
theorem skipOnKey_of_toNat_eq {s : State} {x k : Nibble} (b : Bool) (h : (s.getV x).toNat = k.toNat) :
    skipOnKey b x s = .next (s.skipIf (s.keyPressed k == b)) := by
  have hk : (s.getV x).setWidth 4 = k := by bv_omega
  rw [skipOnKey_eq, if_pos (by omega), hk]

/-- A key skip of the key k skips exactly when that key is in the state `b` (R273, R274). -/
theorem completes_of_skipOnKey {i : Instr} {s : State} {x k : Nibble} {b : Bool}
    (h : exec i s = skipOnKey b x s) (hk : (s.getV x).toNat = k.toNat) :
    Completes i s fun t =>
      (s.keyPressed k = b → t.pc = s.pc + 4#16) ∧ (s.keyPressed k = !b → t.pc = s.pc + 2#16) ∧
      Frame {} s t :=
  completes_of_skipIf (h.trans (skipOnKey_of_toNat_eq b hk)) beq_iff_eq.mpr
    (fun hne => beq_eq_false_iff_ne.mpr (hne ▸ Bool.not_ne_self b))

/-- Settles O43: below 16 the skip compares the named key, and above it the fault is taken. -/
theorem keySkipsTestTheNamedKey : Obligations.KeySkipsTestTheNamedKey :=
  fun _ _ _ => ⟨completes_of_skipOnKey rfl, completes_of_skipOnKey rfl,
    fun hgt => ⟨skipOnKey_of_gt hgt, skipOnKey_of_gt hgt⟩⟩

end Sys2Proof.Machine
end

section
/-! Memory transfers: FX33, FX55 and FX65 (spec/45_memory_transfer.md R290 to R293). -/

namespace Sys2Proof.Machine

/-! ### The two ends of a checked transfer (R64, R314) -/

section
variable {i : Instr} {s u : State} {base op : Word} {count : Nat}

/-- R64: a transfer inside the address space passes its check. -/
theorem exec_of_rangeOk {r : Result} (h : exec i s = if rangeOk base count then .next u else r)
    (hfit : base.toNat + count ≤ 4096) : exec i s = .next u :=
  h.trans (if_pos ((rangeOk_iff base count).mpr (.inr hfit)))

/-- R314: any other transfer takes its error. -/
theorem halts_of_not_rangeOk {n : Nat}
    (h : exec i s = if rangeOk base count then .next u else raise .outOfBounds (some op) s)
    (hcount : count ≠ 0) (hover : 4096 < base.toNat + count) (hop : op = BitVec.ofNat 16 n) :
    Halts i s .outOfBounds n := by
  have hrange : ¬rangeOk base count = true := by
    rw [rangeOk_iff]
    omega
  subst hop
  exact h.trans (if_neg hrange)

end

/-- R105: a REG_SUB word of group F is the number its digits give. -/
theorem encodeRegImm_groupF_eq_ofNat (x : Nibble) (nn : Byte) :
    encodeRegImm 0xF#4 x nn = BitVec.ofNat 16 (0xF000 + nn.toNat + x.toNat * 256) := by
  apply BitVec.eq_of_toNat_eq
  have hx := x.isLt
  have hnn := nn.isLt
  rw [toNat_encodeRegImm, BitVec.toNat_ofNat, BitVec.toNat_ofNat]
  omega

/-! ### What a store leaves in memory and a transfer in I (R63, R290 to R293) -/

/-- R63: the k-th stored byte stands at the k-th address. -/
theorem State.readByte_writeBytes_add {s : State} {bs : List Byte} {a k : Nat} {b : Byte}
    (hmem : s.memoryWf = true) (hfit : a + bs.length ≤ memorySize) (hb : bs[k]? = some b) :
    (s.writeBytes a bs).readByte (a + k) = b := by
  obtain ⟨hk, -⟩ := List.getElem?_eq_some_iff.mp hb
  rw [State.readByte_writeBytes bs s a _ hmem hfit, if_pos (by omega), Nat.add_sub_cancel_left,
    List.getD_eq_getElem?_getD, hb, Option.getD_some]

/-- R291: V0..V[x] in register order. -/
theorem State.getElem?_lowRegs (s : State) {x k : Nibble} (h : k.toNat ≤ x.toNat) :
    (s.lowRegs x)[k.toNat]? = some (s.getV k) := by
  have hk := k.isLt
  rw [State.lowRegs, transferCount, List.getElem?_take_of_lt (Nat.lt_succ_of_le h), Vector.getElem?_toList,
    Vector.getElem?_eq_getElem hk, State.getV]

/-- R293: what a transfer does to I. Inside the address space the advance does not wrap. -/
theorem State.incrementIndex_i_cases {s t : State} {x : Nibble} (hindex : t.i = s.i) (hcfg : t.cfg = s.cfg)
    (hfit : s.i.toNat + x.toNat ≤ 0xFFF) :
    (s.cfg.indexIncrement = .unchanged → (t.incrementIndex x).i = s.i) ∧
    (s.cfg.indexIncrement = .plusXPlus1 → (t.incrementIndex x).i.toNat = s.i.toNat + x.toNat + 1) := by
  rw [State.incrementIndex_i, hindex, hcfg]
  constructor
  · intro hinc
    rw [hinc]
  · intro hinc
    rw [hinc]
    bv_omega

/-! ### The statements -/

/-- Settles O49: the three bytes stored at I are the quotients and remainders of a byte division. -/
theorem bcdStoresTheDecimalDigits : Obligations.BcdStoresTheDecimalDigits := by
  refine fun x s => ⟨fun hmem hi => ?_, fun hi =>
    halts_of_not_rangeOk rfl (by decide) (by omega) (encodeRegImm_groupF_eq_ofNat x 0x33#8)⟩
  have hdigit {k : Nat} {b : Byte} (hb : (bcdDigits (s.getV x))[k]? = some b) :
      (s.advance.writeBytes s.i.toNat (bcdDigits (s.getV x))).readByte (s.i.toNat + k) = b :=
    State.readByte_writeBytes_add hmem (by rw [length_bcdDigits, memorySize]; omega) hb
  refine ⟨_, exec_of_rangeOk rfl (by omega), ?_, ?_, ?_, State.writeBytes_pc _ _ _,
    (Frame.advance s).trans (Frame.writeBytes _ (mem_addresses_of_store (length_bcdDigits _)))⟩
  · exact (congrArg BitVec.toNat (hdigit (k := 0) rfl)).trans BitVec.toNat_udiv
  · rw [hdigit (k := 1) rfl, BitVec.toNat_umod, BitVec.toNat_udiv]
    rfl
  · rw [hdigit (k := 2) rfl, BitVec.toNat_umod]
    rfl

/-- Settles O50: the k-th byte stored at I is V[k], and the advance of I comes after the store. -/
theorem storeWritesTheLowRegisters : Obligations.StoreWritesTheLowRegisters := by
  refine fun x s => ⟨fun hmem hi => ?_, fun hi =>
    halts_of_not_rangeOk rfl (Nat.succ_ne_zero _) (Nat.succ_lt_succ hi)
      (encodeRegImm_groupF_eq_ofNat x 0x55#8)⟩
  have hfit : s.i.toNat + transferCount x ≤ 4096 := Nat.succ_le_succ hi
  obtain ⟨hkeep, hplus⟩ := State.incrementIndex_i_cases (t := s.advance.writeBytes s.i.toNat (s.lowRegs x))
    (State.writeBytes_i _ _ _) (State.writeBytes_cfg _ _ _) hi
  refine ⟨_, exec_of_rangeOk rfl hfit, fun k hk => ?_, hkeep, hplus, ?_, ?_⟩
  · rw [State.incrementIndex_readByte]
    exact State.readByte_writeBytes_add hmem ((s.length_lowRegs x).symm ▸ hfit) (s.getElem?_lowRegs hk)
  · exact (State.incrementIndex_pc _ _).trans (State.writeBytes_pc _ _ _)
  · exact ((Frame.advance s).trans (Frame.writeBytes _ (mem_addresses_of_store (s.length_lowRegs x)))).trans
      (Frame.incrementIndex _ x fun _ => rfl)

/-- Settles O51: the block load reads the bytes at I before the advance of I. -/
theorem loadReadsTheLowRegisters : Obligations.LoadReadsTheLowRegisters := by
  refine fun x s => ⟨fun hi => ?_, fun hi =>
    halts_of_not_rangeOk rfl (Nat.succ_ne_zero _) (Nat.succ_lt_succ hi)
      (encodeRegImm_groupF_eq_ofNat x 0x65#8)⟩
  obtain ⟨hkeep, hplus⟩ := State.incrementIndex_i_cases (s := s) (s.advance.loadLowRegs_i x)
    (s.advance.loadLowRegs_cfg x) hi
  have hregs (r : Nibble) := (State.incrementIndex_getV (s.advance.loadLowRegs x) x r).trans
    (s.advance.getV_loadLowRegs x r)
  refine ⟨_, exec_of_rangeOk rfl (Nat.succ_le_succ hi), fun k hk => (hregs k).trans (if_pos hk),
    fun k hk => (hregs k).trans (if_neg (Nat.not_le.mpr hk)), hkeep, hplus,
    (State.incrementIndex_pc _ x).trans (s.advance.loadLowRegs_pc x), ?_⟩
  exact ((Frame.advance s).trans (Frame.loadLowRegs _ (mem_lowNibbles x))).trans
    (Frame.incrementIndex _ x fun _ => rfl)

/-- Settles O52: the store leaves V[k] at I + k, and the load reads it there; the V registers in between are
none of the load's operands. -/
theorem loadGivesBackWhatStoreWrote : Obligations.LoadGivesBackWhatStoreWrote := by
  intro x s w hmem hi
  obtain ⟨t, hstore, hbytes, -⟩ := (storeWritesTheLowRegisters x s).1 hmem hi
  obtain ⟨u, hload, hregs, -⟩ := (loadReadsTheLowRegisters x { t with v := w, i := s.i }).1 hi
  exact ⟨t, u, hstore, hload, fun k hk => (hregs k hk).trans (hbytes k hk)⟩

end Sys2Proof.Machine
end

section
/-! Host transactions and what every step answers (spec/60_exceptions.md R310 to R331,
spec/70_reset_and_hazards.md R360, R361). -/

namespace Sys2Proof.Machine

/-! ### Every instruction, step and run answers a next state (R310 to R319) -/

/-- R310, R318: a checked operation completes, or its error is a next state. -/
theorem ite_raise_answers {c : Prop} [Decidable c] {s u : State} {k : ErrorKind} {op : Option Word} :
    ∃ t, (if c then .next u else raise k op s : Result) = .next t := by
  split
  · exact ⟨_, rfl⟩
  · exact ⟨_, rfl⟩

theorem callTo_answers (op : Word) (nnn : Addr) (s : State) : ∃ t, callTo op nnn s = .next t := by
  rw [callTo_eq]
  exact ite_raise_answers

theorem execRet_answers (s : State) : ∃ t, execRet s = .next t := by
  rw [execRet_eq]
  split
  · exact ⟨_, rfl⟩
  · exact ⟨_, rfl⟩

theorem execSys_answers (nnn : Addr) (s : State) : ∃ t, execSys nnn s = .next t := by
  unfold execSys
  split
  · exact callTo_answers _ nnn s
  · exact ⟨_, rfl⟩

/-- R317: a key index out of range is a next state too. -/
theorem skipOnKey_answers (b : Bool) (x : Nibble) (s : State) : ∃ t, skipOnKey b x s = .next t := by
  rw [skipOnKey_eq]
  split
  · exact ⟨_, rfl⟩
  · exact ⟨_, rfl⟩

theorem exec_answers (i : Instr) (s : State) : ∃ t, exec i s = .next t := by
  cases i with
  | ret => exact execRet_answers s
  | sys nnn => exact execSys_answers nnn s
  | call nnn => exact callTo_answers _ nnn s
  | skp x | sknp x => exact skipOnKey_answers _ x s
  | drw _ _ _ | ldBVx _ | ldMemVx _ | ldVxMem _ => exact ite_raise_answers
  | _ => exact ⟨_, rfl⟩

theorem step_answers (s : State) : ∃ t, step s = .next t := by
  by_cases hm : s.mode = .running
  · cases hf : s.fetch with
    | outOfRange => exact ⟨_, step_outOfRange s hm hf⟩
    | unknown op => exact ⟨_, step_unknown s op hm hf⟩
    | instr i =>
      rw [step_instr s i hm hf]
      exact exec_answers i s.beginStep
  · exact ⟨s, step_idle s hm⟩

/-- R328: a ROM that fits is written at 0x200. -/
theorem State.loadRom_of_le {s : State} {rom : List Byte} (h : rom.length ≤ 3584) :
    s.loadRom rom = .ok (s.writeBytes programBase rom) :=
  if_neg (Nat.not_lt.mpr h)

/-- R315: a longer ROM is rejected. -/
theorem State.loadRom_of_gt {s : State} {rom : List Byte} (h : 3584 < rom.length) :
    s.loadRom rom = .romTooLarge :=
  if_pos h

theorem Transaction.apply_loadRom_of_le {s : State} {rom : List Byte} (h : rom.length ≤ 3584) :
    (Transaction.loadRom rom).apply s = .next (s.writeBytes programBase rom) := by
  rw [Transaction.apply, State.loadRom_of_le h]

theorem Transaction.apply_loadRom_of_gt {s : State} {rom : List Byte} (h : 3584 < rom.length) :
    (Transaction.loadRom rom).apply s = .next s := by
  rw [Transaction.apply, State.loadRom_of_gt h]

theorem Transaction.apply_answers (u : Transaction) (s : State) : ∃ t, u.apply s = .next t := by
  cases u with
  | step => exact step_answers s
  | tick | keyDown _ | keyUp _ | reset => exact ⟨_, rfl⟩
  | loadRom rom =>
    rcases Nat.lt_or_ge 3584 rom.length with hlong | hfits
    · exact ⟨_, Transaction.apply_loadRom_of_gt hlong⟩
    · exact ⟨_, Transaction.apply_loadRom_of_le hfits⟩

theorem runTransactions_answers (ts : List Transaction) : ∀ s : State, ∃ t, runTransactions ts s = .next t := by
  induction ts with
  | nil => exact fun s => ⟨s, rfl⟩
  | cons u ts ih =>
    intro s
    obtain ⟨v, hu⟩ := u.apply_answers s
    rw [runTransactions_cons_of_next hu]
    exact ih v

/-- Settles O10: each meaning ends in a next state on every path, and so does the step and, by induction, the
run. -/
theorem machineAlwaysAnswersANextState : Obligations.MachineAlwaysAnswersANextState :=
  ⟨exec_answers, step_answers, runTransactions_answers⟩

/-! ### The output of the step (R331) -/

section
variable {s t : State}

/-- An error writes the mode only, so it leaves a cleared `drewLastStep` false. -/
theorem drewLastStep_iff_of_raise {k : ErrorKind} {op : Option Word} {P : Prop} (hd : s.drewLastStep = false)
    (h : raise k op s = .next t) : t.drewLastStep = true ↔ t.mode = .running ∧ P := by
  obtain ⟨e, he⟩ := halted_of_raise h
  have hdrew : t.drewLastStep = false := of_next_eq (P := fun v => v.drewLastStep = false) h hd
  simp [hdrew, he]

theorem execDrw_drewLastStep_iff {x y n : Nibble} (hm : s.mode = .running) (hd : s.drewLastStep = false)
    (h : execDrw x y n s = .next t) : t.drewLastStep = true ↔ t.mode = .running := by
  unfold execDrw at h
  split at h
  · obtain rfl := Host.Outcome.next.inj h
    exact iff_of_true rfl hm
  · rw [drewLastStep_iff_of_raise (P := True) hd h, and_true]

/-- R331: of the instructions a step runs, only 00E0 and a completed DXYN leave `drewLastStep` true. -/
theorem exec_drewLastStep_iff {i : Instr} (hm : s.mode = .running) (hd : s.drewLastStep = false)
    (h : exec i s = .next t) :
    t.drewLastStep = true ↔ t.mode = .running ∧ (i = .cls ∨ ∃ x y n, i = .drw x y n) := by
  cases i with
  | cls =>
    obtain rfl := Host.Outcome.next.inj h
    exact iff_of_true rfl ⟨hm, .inl rfl⟩
  | drw x y n =>
    rw [execDrw_drewLastStep_iff hm hd h, and_iff_left (.inr ⟨x, y, n, rfl⟩)]
  | _ =>
    have hdrew : t.drewLastStep = false := ((exec_frame _ h).drew rfl).trans hd
    simp [hdrew]

end

/-- Settles O21: the step clears the output, an error leaves it false, and the fetched instruction decides. -/
theorem drewLastStepTellsACompletedDraw : Obligations.DrewLastStepTellsACompletedDraw := by
  intro s t hm h
  rcases step_cases h with ⟨hidle, -⟩ | ⟨-, -, hr⟩ | ⟨-, op, -, hr⟩ | ⟨-, i, hf, hx⟩
  · exact absurd hm hidle
  · exact drewLastStep_iff_of_raise rfl hr
  · exact drewLastStep_iff_of_raise rfl hr
  · obtain ⟨hpc, hd⟩ := (s.fetch_eq_instr i).mp hf
    have hdec := (decode_eq_ok _ i).mpr hd
    rw [exec_drewLastStep_iff (s := s.beginStep) hm rfl hx]
    simp [hdec, hpc]

/-! ### The tick (R324) -/

theorem toNat_countDown (b : Byte) : (countDown b).toNat = b.toNat - 1 := by
  unfold countDown
  split <;> bv_omega

/-- Settles O47: both timers are counted down, and the tick writes nothing else. -/
theorem tickCountsBothTimersDown : Obligations.TickCountsBothTimersDown :=
  fun s => ⟨toNat_countDown s.dt, toNat_countDown s.st, rfl⟩

section
variable {s t u : State}

theorem State.tick_writeBytes (bs : List Byte) : ∀ (s : State) (a : Nat),
    s.tick.writeBytes a bs = (s.writeBytes a bs).tick := by
  induction bs with
  | nil => exact fun _ _ => rfl
  | cons b bs ih => exact fun s a => ih (s.writeByte a b) (a + 1)

theorem State.tick_incrementIndex (s : State) (x : Nibble) :
    s.tick.incrementIndex x = (s.incrementIndex x).tick := by
  simp only [State.incrementIndex, State.tick_cfg]
  split
  · rfl
  · rfl

theorem State.tick_writeResultAndFlag (s : State) (x : Nibble) (rf : Byte × Byte) :
    s.tick.writeResultAndFlag x rf = (s.writeResultAndFlag x rf).tick := by
  simp only [State.writeResultAndFlag, State.tick_cfg]
  split
  · rfl
  · rfl

/-- A result that answers `u`, and its counterpart after the tick. -/
theorem next_tick (h : (.next u : Result) = .next t) : (.next u.tick : Result) = .next t.tick :=
  Host.Outcome.next.inj h ▸ rfl

/-- The check and the error of a checked operation read no timer. -/
theorem ite_raise_tick {c : Prop} [Decidable c] {v : State} {k : ErrorKind} {op : Option Word}
    (hv : v = u.tick) (h : (if c then .next u else raise k op s) = .next t) :
    (if c then .next v else raise k op s.tick) = .next t.tick := by
  subst hv
  split at h
  next hc => exact (if_pos hc).trans (next_tick h)
  next hc => exact (if_neg hc).trans (next_tick h)

theorem callTo_tick {op : Word} {nnn : Addr} (h : callTo op nnn s = .next t) :
    callTo op nnn s.tick = .next t.tick := by
  rw [callTo_eq] at h ⊢
  exact ite_raise_tick rfl h

theorem execSys_tick {nnn : Addr} (h : execSys nnn s = .next t) : execSys nnn s.tick = .next t.tick := by
  unfold execSys at h ⊢
  rw [State.tick_cfg]
  split at h
  · exact callTo_tick h
  · exact next_tick h

theorem execRet_tick (h : execRet s = .next t) : execRet s.tick = .next t.tick := by
  rw [execRet_eq] at h ⊢
  rw [State.tick_stack]
  split at h
  · exact next_tick h
  · exact next_tick h

theorem skipOnKey_tick {b : Bool} {x : Nibble} (h : skipOnKey b x s = .next t) :
    skipOnKey b x s.tick = .next t.tick := by
  rw [skipOnKey_eq] at h ⊢
  rw [State.tick_getV]
  split at h
  next hc => exact (if_pos hc).trans (next_tick h)
  next hc => exact (if_neg hc).trans (next_tick h)

theorem writeVAndFlag_tick {x : Nibble} {rf : Byte × Byte} (h : writeVAndFlag x rf s = .next t) :
    writeVAndFlag x rf s.tick = .next t.tick :=
  (congrArg Host.Outcome.next (State.tick_writeResultAndFlag s.advance x rf)).trans (next_tick h)

/-- R324, R365: an instruction that uses no timer does after a tick what it does before it. -/
theorem exec_tick {i : Instr} (hi : ∀ x, i ≠ .ldVxDt x ∧ i ≠ .ldDtVx x ∧ i ≠ .ldStVx x)
    (h : exec i s = .next t) : exec i s.tick = .next t.tick := by
  cases i with
  | ldVxDt x | ldDtVx x | ldStVx x => simp at hi
  | ret => exact execRet_tick h
  | sys nnn => exact execSys_tick h
  | call nnn => exact callTo_tick h
  | skp x | sknp x => exact skipOnKey_tick h
  | addReg x y | sub x y | shr x y | subn x y | shl x y => exact writeVAndFlag_tick h
  | drw x y n => exact ite_raise_tick rfl h
  | ldBVx x => exact ite_raise_tick (State.tick_writeBytes _ s.advance _) h
  | ldMemVx x =>
    have hstore := State.tick_writeBytes (s.lowRegs x) s.advance s.i.toNat
    exact ite_raise_tick ((congrArg (·.incrementIndex x) hstore).trans (State.tick_incrementIndex _ x)) h
  | ldVxMem x => exact ite_raise_tick (State.tick_incrementIndex (s.advance.loadLowRegs x) x) h
  | _ => exact next_tick h

theorem State.tick_fetch (s : State) : s.tick.fetch = s.fetch := rfl

/-- R324, R365: a step that uses no timer does after a tick what it does before it. -/
theorem step_tick (hs : ∀ x, decode s.fetchOpcode ≠ .ok (.ldVxDt x) ∧ decode s.fetchOpcode ≠ .ok (.ldDtVx x) ∧
      decode s.fetchOpcode ≠ .ok (.ldStVx x))
    (h : step s = .next t) : step s.tick = .next t.tick := by
  rcases step_cases h with ⟨hm, rfl⟩ | ⟨hm, hf, hr⟩ | ⟨hm, op, hf, hr⟩ | ⟨hm, i, hf, hx⟩
  · exact step_idle _ hm
  · exact (step_outOfRange s.tick hm (s.tick_fetch.trans hf)).trans (next_tick hr)
  · exact (step_unknown s.tick op hm (s.tick_fetch.trans hf)).trans (next_tick hr)
  · obtain ⟨-, hd⟩ := (s.fetch_eq_instr i).mp hf
    have hi : ∀ x, i ≠ .ldVxDt x ∧ i ≠ .ldDtVx x ∧ i ≠ .ldStVx x := by
      simpa [(decode_eq_ok _ i).mpr hd] using hs
    exact (step_instr s.tick i hm (s.tick_fetch.trans hf)).trans (exec_tick (s := s.beginStep) hi hx)

end

/-- Settles O48: the step answers some state, and it answers that state's tick after a tick. -/
theorem tickCommutesWithStepsThatUseNoTimer : Obligations.TickCommutesWithStepsThatUseNoTimer := by
  intro s hs
  obtain ⟨t, ht⟩ := step_answers s
  calc runTransactions [.tick, .step] s
      = runTransactions [.step] s.tick := rfl
    _ = .next t.tick := runTransactions_cons_of_next (step_tick hs ht)
    _ = runTransactions [.tick] t := rfl
    _ = runTransactions [.step, .tick] s := (runTransactions_cons_of_next (u := .step) ht).symm

/-! ### The ROM load (R315, R328) -/

/-- Settles O53: a ROM that fits is a store at 0x200 inside the address space. -/
theorem romLoadCopiesOrRejects : Obligations.RomLoadCopiesOrRejects := by
  refine fun rom s hmem => ⟨fun hfits => ?_, fun hlong =>
    ⟨State.loadRom_of_gt hlong, Transaction.apply_loadRom_of_gt hlong⟩⟩
  have hroom : programBase + rom.length ≤ memorySize := by
    simp only [programBase, memorySize]
    omega
  refine ⟨_, State.loadRom_of_le hfits, Transaction.apply_loadRom_of_le hfits, fun k hk => ?_,
    State.writeBytes_pc s _ rom, Frame.writeBytes s fun p hlo hhi => ?_⟩
  · exact State.readByte_writeBytes_add hmem hroom (List.getElem?_eq_getElem hk)
  · exact List.mem_map.mpr ⟨p - programBase, List.mem_range.mpr (by omega), Nat.add_sub_cancel' hlo⟩

/-! ### The keypad (R326, R327) -/

/-- R326: outside a wait a key press writes the keypad only. -/
theorem State.keyDown_of_not_awaitingKey {s : State} (hm : ∀ x, s.mode ≠ .awaitingKey x) (k : Nibble) :
    s.keyDown k = { s with key := s.key.set k.toNat true } := by
  unfold State.keyDown
  split
  next x hx => exact absurd hx (hm x)
  all_goals rfl

@[simp] theorem State.keyDown_key (s : State) (k : Nibble) : (s.keyDown k).key = s.key.set k.toNat true := by
  by_cases hm : ∃ x, s.mode = .awaitingKey x
  · obtain ⟨x, hx⟩ := hm
    rw [State.keyDown_of_awaitingKey hx]
  · rw [State.keyDown_of_not_awaitingKey (not_exists.mp hm)]

theorem State.keyPressed_keyDown (s : State) (k r : Nibble) :
    (s.keyDown k).keyPressed r = if r = k then true else s.keyPressed r := by
  simp only [State.keyPressed, State.keyDown_key, Vector.getElem_set, BitVec.toNat_inj, eq_comm (a := k)]

/-- Settles O45: the keypad is written at the key only, and in a wait the register and the mode beside it. -/
theorem keyEventsUpdateTheKeypadAndEndTheWait : Obligations.KeyEventsUpdateTheKeypadAndEndTheWait := by
  refine fun k s => ⟨fun r => ?_, fun r => ?_, fun x hx => ?_, fun hm => ?_, rfl⟩
  · rw [State.keyPressed_keyDown]
    by_cases h : r = k <;> simp [h]
  · rw [State.keyPressed_keyUp]
    by_cases h : r = k <;> simp [h]
  · rw [State.keyDown_key, State.keyDown_of_awaitingKey hx, BitVec.ofNat_toNat]
  · rw [State.keyDown_key, State.keyDown_of_not_awaitingKey hm]

/-! ### The life of the engine (R318, R319, R360) -/

/-- A key press leaves the engine live or not: it ends a wait in Running. -/
@[simp] theorem State.keyDown_live (s : State) (k : Nibble) : (s.keyDown k).live = s.live := by
  by_cases hm : ∃ x, s.mode = .awaitingKey x
  · obtain ⟨x, hx⟩ := hm
    rw [State.keyDown_of_awaitingKey hx, State.live, State.live, hx]
  · rw [State.keyDown_of_not_awaitingKey (not_exists.mp hm)]
    rfl

/-- R319: no transaction but the step ends the life of the engine. -/
theorem Transaction.apply_live {u : Transaction} {s t : State} (hu : u ≠ .step) (hs : s.live = true)
    (h : u.apply s = .next t) : t.live = true := by
  have of_next {r : State} : (.next r : Result) = .next t → r.live = true → t.live = true :=
    @of_next_eq (fun r => r.live = true) r t
  cases u with
  | step => exact absurd rfl hu
  | tick | keyUp _ => exact of_next h hs
  | keyDown k => exact of_next h ((s.keyDown_live k).trans hs)
  | loadRom rom =>
    rcases apply_loadRom_cases h with rfl | ⟨-, rfl⟩
    · exact hs
    · rw [State.live, State.writeBytes_mode]
      exact hs
  | reset => exact of_next h rfl

/-- Settles O56: every other transaction keeps a live engine live, and the reset's state is the construction's. -/
theorem onlyStepsHaltAndResetRevives : Obligations.OnlyStepsHaltAndResetRevives := by
  refine ⟨fun u s t hs h ht => ?_, fun s => ⟨s.restart, rfl, rfl, rfl, rfl⟩⟩
  by_contra hu
  exact absurd (Transaction.apply_live hu hs h) (ht ▸ nofun)

end Sys2Proof.Machine
end
